-- ==== Sys2Proof/Word.lean ====
section
/-! DEFINITION. The value types of the CORE's interface and their plainest arithmetic. -/

namespace Sys2Proof

/-- One pulse duration, 16 bits, unsigned, in microseconds (R42). -/
abbrev Pulse := BitVec 16

/-- One payload byte (R49). -/
abbrev Byte := BitVec 8

/-- One RC6 FIELDS element or one INT operand, FIELD_W = 32 bits (R8, R62). -/
abbrev Field := BitVec 32

/-- The 16-bit header word H of a request (R61). -/
abbrev Header := BitVec 16

end Sys2Proof
end

