-- ==== Sys2Proof/Machine/Constants.lean ====
section
/-! DEFINITION. The hardwired constants (R7, R24, R25, R26): read-only, the same after every reset. No request can write
them (R23), so they are definitions and not fields of State. Durations are in microseconds. -/

namespace Sys2Proof.Machine

open Sys2Proof

/-! ## NEC (R24) -/

def necLeadMark : Nat := 9000
def necLeadGap : Nat := 4500
def necBitGap : Nat := 562
def necZero : Nat := 562
def necOne : Nat := 1600
def necRepeatGap : Nat := 2250
/-- The numerator p of NEC_TOL = 1/4. -/
def necTolP : Nat := 1
/-- The denominator q of NEC_TOL = 1/4. -/
def necTolQ : Nat := 4
/-- The midpoint of the two data durations; X10: fixed, not a window. -/
def necThreshold : Nat := (necZero + necOne) / 2
def necFrameLen : Nat := 67
/-- NEC_REPEAT_LEN (R7). -/
def necRepeatLen : Nat := 3

/-! ## RC6 (R25) -/

def rc6T : Nat := 444
/-- 5.5T and 6.5T. -/
def rc6LeadMarkMin : Nat := 11 * rc6T / 2
def rc6LeadMarkMax : Nat := 13 * rc6T / 2
/-- 1.5T and 2.5T. -/
def rc6LeadGapMin : Nat := 3 * rc6T / 2
def rc6LeadGapMax : Nat := 5 * rc6T / 2
/-- 1.5T. -/
def rc6ShortLimit : Nat := 3 * rc6T / 2
def rc6TogglePos : Nat := 10
/-- 3T. -/
def rc6ToggleLimit : Nat := 3 * rc6T
def rc6Pad : Pulse := 65535#16
def rc6WalkStart : Nat := 2
def rc6Bits : Nat := 21
/-- 6T. -/
def rc6LeadMark : Nat := 6 * rc6T
/-- 2T. -/
def rc6LeadGap : Nat := 2 * rc6T
def rc6ToggleBit : Nat := 16

/-! ## Transcoder (R26) -/

/-- HEX_GROUP: hex digits per pulse (R7). -/
def hexGroup : Nat := 4

end Sys2Proof.Machine
end

