-- ==== Sys2Proof/Config.lean ====
section
/-! DEFINITION. The parameters the spec leaves open (R8), the error kinds one of them may answer with (R13), and the
free values. Nothing here has a value that a proof could see, but for the default the spec gives (R8: not given). -/

namespace Sys2Proof

/-- The pulse a TimingError names (R29). -/
inductive TimingField where
  | necLeadMark
  | necLeadGap
  | necBitGap
  | rc6LeadMark
  | rc6LeadGap
  deriving DecidableEq, Repr, Inhabited

/-- The error kinds of `raise`, each with the information it records (R13, R174). -/
inductive Err where
  /-- `FormatError()`: a malformed hex string. -/
  | format
  /-- `TimingError(field, value)`: a pulse outside its tolerance window. -/
  | timing (field : TimingField) (value : Pulse)
  /-- `LengthError(n)`: a payload of n bytes, n not 2, 3 or 4. -/
  | length (n : Nat)
  /-- `TypeError()`: an unsupported input representation. -/
  | type
  /-- `RangeError(n)`: too few pulses in a stream of n. -/
  | range (n : Nat)
  /-- `IllegalOp()`: the request names no operation. -/
  | illegalOp
  deriving DecidableEq, Repr, Inhabited

/-- The open parameters of one CORE (R8), as plain data: the model takes them as an argument, in State. -/
structure Params where
  /-- MAX_PULSES: the longest pulse stream a request may carry (D17). -/
  maxPulses : Nat
  /-- MAX_BYTES: the longest BYTES operand (D17). -/
  maxBytes : Nat
  /-- Is NEC_INT_TO_BYTES given (D10)? -/
  necIntGiven : Bool
  deriving DecidableEq, Repr, Inhabited

/-- MAX_HEX = 4 x MAX_PULSES (R8). -/
def Params.maxHex (p : Params) : Nat := 4 * p.maxPulses

/-- What D17 asks of the sizes: each below 2^32, and MAX_BYTES at least 5. -/
def Params.wf (p : Params) : Bool :=
  decide (p.maxPulses < 2 ^ 32) && decide (5 ≤ p.maxBytes) && decide (p.maxBytes < 2 ^ 32)

/-- MAX_PULSES of the machine after reset: open, any value below 2^32. DESIGN CHOICE (log 3), safe: uninterpreted. -/
opaque Config.maxPulsesWord : BitVec 32

/-- MAX_BYTES of the machine after reset, before it is raised to 5: open. DESIGN CHOICE (log 3), safe: uninterpreted. -/
opaque Config.maxBytesWord : BitVec 32

/-- NEC_INT_TO_BYTES, where it is given: from a FIELD_W-bit integer to a byte sequence or to an error status (D10).
Uninterpreted (log 4), safe. -/
opaque Config.necIntToBytes : Field → Except Err (List Byte)

/-- The free choice of which request in progress answers next (R53, X6), asked with the counter `turn`.
Uninterpreted (log 2), safe. -/
opaque Config.nextToFinish : Nat → Nat

/-- The parameters of the machine after reset. NEC_INT_TO_BYTES is not given: R8 and D10 call that the default (log 4). -/
def Config.params : Params :=
  { maxPulses := Config.maxPulsesWord.toNat
    maxBytes := max 5 Config.maxBytesWord.toNat
    necIntGiven := false }

end Sys2Proof
end

