-- ==== Sys2Proof/Syntax.lean ====
section
/-! DEFINITION. The requests of the opcode table: one constructor per legal pair of OP and TAG (R63, R64), carrying the
operand the request carries (R62). -/

namespace Sys2Proof

/-- A legal request. The operand is part of it, because every operand arrives in the request (R40). -/
inductive Instr where
  /-- TX.PARSE HEX, header 0x0001 (R90). -/
  | txParseHex (h : List Char)
  /-- TX.FORMAT PULSES, header 0x0102 (R91). -/
  | txFormatPulses (s : List Pulse)
  /-- TX.TOL TOL, header 0x0503 (R94): measured, nominal, tolerance p/q. -/
  | txTolTol (m n p q : BitVec 16)
  /-- NEC.DEC HEX, header 0x0010 (R116). -/
  | necDecHex (h : List Char)
  /-- NEC.DEC PULSES, header 0x0110 (R115). -/
  | necDecPulses (s : List Pulse)
  /-- NEC.ENC BYTES, header 0x0211 (R122). -/
  | necEncBytes (x : List Byte)
  /-- NEC.ENC INT, header 0x0411 (R122, D10). -/
  | necEncInt (v : Field)
  /-- NEC.REP HEX, header 0x0012 (R126). -/
  | necRepHex (h : List Char)
  /-- NEC.REP PULSES, header 0x0112 (R125). -/
  | necRepPulses (s : List Pulse)
  /-- RC6.DEC HEX, header 0x0020 (R148). -/
  | rc6DecHex (h : List Char)
  /-- RC6.DEC PULSES, header 0x0120 (R147). -/
  | rc6DecPulses (s : List Pulse)
  /-- RC6.ENC FIELDS, header 0x0321 (R155). -/
  | rc6EncFields (f : List Field)
  /-- RC6.ENC INT, header 0x0421 (R155). -/
  | rc6EncInt (v : Field)
  deriving DecidableEq, Repr

end Sys2Proof
end

