-- ==== Sys2Proof/Decode.lean ====
section
/-! DEFINITION. Requests as the host sends them, the decoder from a request's header word and operand to an instruction
(R61 to R65, R79), and the encoder from the opcode table. -/

namespace Sys2Proof

/-- The tagged operand of a request (R62). A character is any character (R62); log 8. -/
inductive Operand where
  | hex (h : List Char)
  | pulses (s : List Pulse)
  | bytes (x : List Byte)
  | fields (f : List Field)
  | int (v : Field)
  | tol (m n p q : BitVec 16)
  /-- TAG 6, reserved, no payload. -/
  | reserved6
  /-- TAG 7, reserved, no payload. -/
  | reserved7
  deriving DecidableEq, Repr

/-- TAG, the operand's representation (R62). -/
def Operand.tag : Operand → BitVec 3
  | .hex _ => 0#3
  | .pulses _ => 1#3
  | .bytes _ => 2#3
  | .fields _ => 3#3
  | .int _ => 4#3
  | .tol _ _ _ _ => 5#3
  | .reserved6 => 6#3
  | .reserved7 => 7#3

/-- A request: RSV, OP and one tagged operand (R60, R61). TAG is held once, in the operand; `Request.header` is the
word H. DEDUCED (log 7), safe. -/
structure Request where
  rsv : BitVec 5
  op : BitVec 8
  operand : Operand
  deriving DecidableEq, Repr

/-- H = RSV, TAG, OP from the top down (R61; R77: H = (TAG << 8) | OP when RSV is 0). -/
def Request.header (r : Request) : Header := r.rsv ++ r.operand.tag ++ r.op

/-- OP = H[7:0] (R61). -/
def opField (h : Header) : BitVec 8 := h.extractLsb' 0 8

/-- TAG = H[10:8] (R61). -/
def tagField (h : Header) : BitVec 3 := h.extractLsb' 8 3

/-- RSV = H[15:11] (R61). -/
def rsvField (h : Header) : BitVec 5 := h.extractLsb' 11 5

/-- The operand of each TAG whose bits are all 0: an empty sequence, the integer 0, four zeros (log 6). -/
def Operand.zero (t : BitVec 3) : Operand :=
  if t = 0#3 then .hex []
  else if t = 1#3 then .pulses []
  else if t = 2#3 then .bytes []
  else if t = 3#3 then .fields []
  else if t = 4#3 then .int 0#32
  else if t = 5#3 then .tol 0#16 0#16 0#16 0#16
  else if t = 6#3 then .reserved6
  else .reserved7

/-- The request with header word H and the zero operand of its TAG (log 6). -/
def Request.ofHeader (h : Header) : Request :=
  { rsv := rsvField h, op := opField h, operand := Operand.zero (tagField h) }

/-- The eight operations (R63). -/
inductive Op where
  | txParse
  | txFormat
  | txTol
  | necDec
  | necEnc
  | necRep
  | rc6Dec
  | rc6Enc
  deriving DecidableEq, Repr

/-- The operation codes; every other value is reserved (R63). -/
def Op.ofCode (c : BitVec 8) : Option Op :=
  if c = 0x01#8 then some .txParse
  else if c = 0x02#8 then some .txFormat
  else if c = 0x03#8 then some .txTol
  else if c = 0x10#8 then some .necDec
  else if c = 0x11#8 then some .necEnc
  else if c = 0x12#8 then some .necRep
  else if c = 0x20#8 then some .rc6Dec
  else if c = 0x21#8 then some .rc6Enc
  else none

/-- The legal operand representations of each operation (R64); `none` where the TAG is not listed. NEC.ENC with INT
decodes whether or not NEC_INT_TO_BYTES is given: its meaning raises the TypeError of R64 when it is not (log 4). -/
def Op.withOperand : Op → Operand → Option Instr
  | .txParse, .hex h => some (.txParseHex h)
  | .txFormat, .pulses s => some (.txFormatPulses s)
  | .txTol, .tol m n p q => some (.txTolTol m n p q)
  | .necDec, .hex h => some (.necDecHex h)
  | .necDec, .pulses s => some (.necDecPulses s)
  | .necEnc, .bytes x => some (.necEncBytes x)
  | .necEnc, .int v => some (.necEncInt v)
  | .necRep, .hex h => some (.necRepHex h)
  | .necRep, .pulses s => some (.necRepPulses s)
  | .rc6Dec, .hex h => some (.rc6DecHex h)
  | .rc6Dec, .pulses s => some (.rc6DecPulses s)
  | .rc6Enc, .fields f => some (.rc6EncFields f)
  | .rc6Enc, .int v => some (.rc6EncInt v)
  | _, _ => none

/-- Why a header names no legal request (R65, R64). -/
inductive Reject where
  /-- RSV is not 0. -/
  | reservedBits (rsv : BitVec 5)
  /-- OP is not assigned. -/
  | unassignedOp (op : BitVec 8)
  /-- TAG is not legal for OP. -/
  | illegalTag (op : BitVec 8) (tag : BitVec 3)
  deriving DecidableEq, Repr

/-- The request checks 2, 3 and 4 of R79, in that order, on the header word H and the operand it tags. -/
def decodeWord (h : Header) (x : Operand) : Except Reject Instr :=
  if rsvField h ≠ 0#5 then .error (.reservedBits (rsvField h))
  else
    match Op.ofCode (opField h) with
    | none => .error (.unassignedOp (opField h))
    | some o =>
      match o.withOperand x with
      | none => .error (.illegalTag (opField h) (tagField h))
      | some i => .ok i

/-- The decoder: total on every request. -/
def decode (r : Request) : Except Reject Instr := decodeWord r.header r.operand

/-- The header word of each row of the opcode table (its `match`). -/
def encodeHeader : Instr → Header
  | .txParseHex _ => 0x0001#16
  | .txFormatPulses _ => 0x0102#16
  | .txTolTol _ _ _ _ => 0x0503#16
  | .necDecHex _ => 0x0010#16
  | .necDecPulses _ => 0x0110#16
  | .necEncBytes _ => 0x0211#16
  | .necEncInt _ => 0x0411#16
  | .necRepHex _ => 0x0012#16
  | .necRepPulses _ => 0x0112#16
  | .rc6DecHex _ => 0x0020#16
  | .rc6DecPulses _ => 0x0120#16
  | .rc6EncFields _ => 0x0321#16
  | .rc6EncInt _ => 0x0421#16

/-- The operand each instruction carries, under its tag (R62, R64). -/
def Instr.operand : Instr → Operand
  | .txParseHex h => .hex h
  | .txFormatPulses s => .pulses s
  | .txTolTol m n p q => .tol m n p q
  | .necDecHex h => .hex h
  | .necDecPulses s => .pulses s
  | .necEncBytes x => .bytes x
  | .necEncInt v => .int v
  | .necRepHex h => .hex h
  | .necRepPulses s => .pulses s
  | .rc6DecHex h => .hex h
  | .rc6DecPulses s => .pulses s
  | .rc6EncFields f => .fields f
  | .rc6EncInt v => .int v

/-- The encoder: the request whose header is the opcode table's word, with the operand following it (R77). -/
def encode (i : Instr) : Request :=
  { rsv := rsvField (encodeHeader i), op := opField (encodeHeader i), operand := i.operand }

/-- The decoder on a table word: bit 0 of `w` is bit 0 of H, and the operand is the zero operand of the word's TAG.
There is one header, of 16 bits, so a word of any other length names nothing (R61; log 6). -/
def decodeTableWord (nbits w : Nat) : Option Instr :=
  if nbits = 16 ∧ w < 2 ^ 16 then
    match decode (Request.ofHeader (BitVec.ofNat 16 w)) with
    | .ok i => some i
    | .error _ => none
  else none

end Sys2Proof
end

