-- ==== Sys2Proof/Machine/State.lean ====
section
/-! DEFINITION. The CORE's state between two steps, its responses, and the ways a step can stop. The CORE has no
register, no program counter, no flag, no mode and no memory (R20 to R23, R31, R40): what it has at any moment is the
requests in progress and the responses pending. -/

namespace Sys2Proof.Machine

open Sys2Proof

/-- An RC6 field record: info 8 bits, control 8 bits, toggle 1 bit, mode 3 bits (R66, R146). -/
structure Rc6Record where
  info : Byte
  control : Byte
  toggle : BitVec 1
  mode : BitVec 3
  deriving DecidableEq, Repr

/-- An NEC payload: exactly four bytes, b0 first on the wire (R15, R44). -/
structure NecPayload where
  b0 : Byte
  b1 : Byte
  b2 : Byte
  b3 : Byte
  deriving DecidableEq, Repr

/-- The RESULT of a response, in the formats of R66. -/
inductive Result where
  /-- TX.PARSE: a pulse sequence. -/
  | pulses (s : List Pulse)
  /-- TX.FORMAT, NEC.ENC, RC6.ENC: a hex string of lowercase digits. -/
  | hex (h : List Char)
  /-- TX.TOL, NEC.REP: one bit. -/
  | bit (b : Bool)
  /-- NEC.DEC: four bytes. -/
  | payload (p : NecPayload)
  /-- RC6.DEC: the record. -/
  | record (r : Rc6Record)
  deriving DecidableEq, Repr

/-- The response record (R28). -/
structure Response where
  status : BitVec 4
  errField : BitVec 3
  errValue : BitVec 32
  /-- Present only when STATUS is OK. -/
  result : Option Result
  deriving DecidableEq, Repr

/-- The CORE between two steps. -/
structure State where
  /-- The open parameters (R8). No step changes them (R23). The model's own field; log 3, log 4. -/
  params : Params
  /-- The requests in progress, any number of them, oldest first (R192, R200). -/
  inFlight : List Request
  /-- The responses pending: produced and not yet taken by the host, oldest first (R28, R200). -/
  responses : List Response
  /-- The index of the next free choice of which request answers. The model's own field; log 2. -/
  turn : Nat
  deriving DecidableEq, Repr

/-- The CORE right after reset: no request in progress and no response pending (R200, R32). -/
def State.reset : State :=
  { params := Config.params, inFlight := [], responses := [], turn := 0 }

/-- The ways the machine stops with a fault: none. Every request, legal or illegal, ends with a response (R65, R206),
and an error is a response (R171). -/
inductive Fault where
  deriving DecidableEq, Repr

/-- The ways a step has no meaning. -/
inductive Refusal where
  /-- Raised by `exec` for an instruction that has no meaning yet. Safe. No arm of `exec` answers so. -/
  | notModelled (mnemonic : String)
  /-- Raised by `step` for a request whose HEX, PULSES or BYTES operand is over its size limit: "not admitted. The model
  gives it no meaning (a refusal)" (R58, X4). Safe: no claim about such a request can be proved. -/
  | oversizeOperand (tag : BitVec 3)
  deriving DecidableEq, Repr

end Sys2Proof.Machine
end

