-- ==== Sys2Proof/Machine/Flags.lean ====
section
/-! DEFINITION. The CORE has no flags (R22). What stands in their place: the status and information codes of a response
(R29, R170), and the predicates that decide them (R14, R140). -/

namespace Sys2Proof.Machine

open Sys2Proof

/-- STATUS of an error kind (R170). OK is 0. -/
def errStatus : Err → BitVec 4
  | .format => 1#4
  | .timing _ _ => 2#4
  | .length _ => 3#4
  | .type => 4#4
  | .range _ => 5#4
  | .illegalOp => 6#4

/-- ERR_FIELD codes (R29). -/
def timingFieldCode : TimingField → BitVec 3
  | .necLeadMark => 0#3
  | .necLeadGap => 1#3
  | .necBitGap => 2#3
  | .rc6LeadMark => 3#3
  | .rc6LeadGap => 4#3

/-- ERR_FIELD of an error: the failing pulse for TimingError, else 0 (R28, R170). -/
def errFieldOf : Err → BitVec 3
  | .timing f _ => timingFieldCode f
  | _ => 0#3

/-- ERR_VALUE of an error: the observed pulse zero-extended, the byte length or the stream length, else 0 (R28, R170).
Every length a request within its limit gives fits in 32 bits (C13); log 12. -/
def errValueOf : Err → BitVec 32
  | .timing _ v => v.setWidth 32
  | .length n => BitVec.ofNat 32 n
  | .range n => BitVec.ofNat 32 n
  | _ => 0#32

/-- `Tol(m, n, p, q)`: n*(q-p) <= m*q <= n*(q+p) in exact integers (R14, R9). -/
def tol (m n p q : Nat) : Bool :=
  decide ((n : Int) * ((q : Int) - (p : Int)) ≤ (m : Int) * (q : Int)) &&
    decide ((m : Int) * (q : Int) ≤ (n : Int) * ((q : Int) + (p : Int)))

/-- The NEC window of nominal `n`: Tol(v, n, 1, 4) (R24, R95). -/
def necWindow (n : Nat) (v : Pulse) : Bool := tol v.toNat n necTolP necTolQ

/-- `InWin(v, lo, hi)` (R140). -/
def inWin (v : Pulse) (lo hi : Nat) : Bool := decide (lo ≤ v.toNat) && decide (v.toNat ≤ hi)

end Sys2Proof.Machine
end

