-- ==== Sys2Proof/Machine/Operands.lean ====
section
/-! DEFINITION. Every operand form: size limits (R58), hex strings as pulse streams and back (R67, R90, R91, R93), NEC
payload forms (R72), RC6 field forms (R76). -/

namespace Sys2Proof.Machine

open Sys2Proof

/-! ## Size limits -/

/-- Is the sequence longer than the limit? Counted along the sequence, so that an empty one is within every limit. -/
def longerThan {α : Type} : List α → Nat → Bool
  | [], _ => false
  | _ :: _, 0 => true
  | _ :: l, n + 1 => longerThan l n

/-- The operand is over its size limit (R58). FIELDS, INT, TOL and the reserved tags have no limit (R62). -/
def oversize (p : Params) : Operand → Bool
  | .hex h => longerThan h p.maxHex
  | .pulses s => longerThan s p.maxPulses
  | .bytes x => longerThan x p.maxBytes
  | .fields _ => false
  | .int _ => false
  | .tol _ _ _ _ => false
  | .reserved6 => false
  | .reserved7 => false

/-! ## Hex strings -/

/-- `HexVal(c)`: the value of a hex digit, either case; `none` for every other character (R93). -/
def hexVal (c : Char) : Option Nat :=
  if '0' ≤ c ∧ c ≤ '9' then some (c.toNat - '0'.toNat)
  else if 'a' ≤ c ∧ c ≤ 'f' then some (c.toNat - 'a'.toNat + 10)
  else if 'A' ≤ c ∧ c ≤ 'F' then some (c.toNat - 'A'.toNat + 10)
  else none

/-- The lowercase digit whose value is the nibble (R93, R26). -/
def hexDigit (n : BitVec 4) : Char :=
  if n.toNat < 10 then Char.ofNat ('0'.toNat + n.toNat) else Char.ofNat ('a'.toNat + (n.toNat - 10))

/-- `hex2(b)`: two lowercase digits, high nibble first (R93). -/
def hex2 (b : Byte) : List Char := [hexDigit (b.extractLsb' 4 4), hexDigit (b.extractLsb' 0 4)]

/-- One pulse from the values of its four digits, low byte first (R90, R43). -/
def groupPulse (a b c d : Nat) : Pulse :=
  let lo := a * 16 + b
  let hi := c * 16 + d
  BitVec.ofNat 16 ((hi <<< 8) ||| lo)

/-- The pulses of a string cut in groups of four; FormatError at a character that is no hex digit, or at a short group
(R90). -/
def parseGroups : List Char → Except Err (List Pulse)
  | [] => .ok []
  | a :: b :: c :: d :: rest =>
    match hexVal a, hexVal b, hexVal c, hexVal d with
    | some va, some vb, some vc, some vd =>
      match parseGroups rest with
      | .ok out => .ok (groupPulse va vb vc vd :: out)
      | .error e => .error e
    | _, _, _, _ => .error .format
  | _ => .error .format

/-- `TxParse(h)` (R90). -/
def txParse (h : List Char) : Except Err (List Pulse) :=
  if h.length % hexGroup ≠ 0 then .error .format else parseGroups h

/-- `TxFormat(s)` (R91): per pulse hex2 of the low byte, then hex2 of the high byte. -/
def txFormat (s : List Pulse) : List Char :=
  s.flatMap fun v => hex2 (v.extractLsb' 0 8) ++ hex2 (v.extractLsb' 8 8)

/-! ## NEC payloads -/

/-- `NecNormalize(X)` (R72). -/
def necNormalize : List Byte → Except Err NecPayload
  | [x0, x1] => .ok ⟨x0, x0 ^^^ 0xFF#8, x1, x1 ^^^ 0xFF#8⟩
  | [x0, x1, x2] => .ok ⟨x0, x1, x2, x2 ^^^ 0xFF#8⟩
  | [x0, x1, x2, x3] => .ok ⟨x0, x1, x2, x3⟩
  | x => .error (.length x.length)

/-- The payload as a little-endian 32-bit word (R44). -/
def necWord (p : NecPayload) : BitVec 32 :=
  p.b0.setWidth 32 ||| p.b1.setWidth 32 <<< 8 ||| p.b2.setWidth 32 <<< 16 ||| p.b3.setWidth 32 <<< 24

/-- The four bytes of the accumulator, B[j] = ACC[8j+7 : 8j] (R113). -/
def necBytesOf (acc : BitVec 32) : NecPayload :=
  ⟨acc.extractLsb' 0 8, acc.extractLsb' 8 8, acc.extractLsb' 16 8, acc.extractLsb' 24 8⟩

/-! ## RC6 fields -/

/-- The four fields of RC6.ENC before masking, each FIELD_W bits (R76, R150). -/
structure Rc6Fields where
  info : Field
  control : Field
  toggle : Field
  mode : Field
  deriving DecidableEq, Repr

/-- The fields of a FIELDS operand: absent elements are 0; TypeError for length 0 or more than 4 (R76). -/
def rc6FieldsOf : List Field → Except Err Rc6Fields
  | [i] => .ok ⟨i, 0#32, 0#32, 0#32⟩
  | [i, c] => .ok ⟨i, c, 0#32, 0#32⟩
  | [i, c, t] => .ok ⟨i, c, t, 0#32⟩
  | [i, c, t, m] => .ok ⟨i, c, t, m⟩
  | _ => .error .type

/-- The fields of an INT operand: info only (R76). -/
def rc6FieldsOfInt (v : Field) : Rc6Fields := ⟨v, 0#32, 0#32, 0#32⟩

end Sys2Proof.Machine
end

