-- ==== Sys2Proof/Machine/Ops.lean ====
section
/-! DEFINITION. The named operations over state: answering a request, raising an error, reading a pulse, polarity, which
request answers next, and what the host can do to the CORE. -/

namespace Sys2Proof.Machine

open Sys2Proof

/-- What a step answers. -/
abbrev StepResult := Host.Outcome State Fault Refusal

/-! ## Responses -/

/-- The response of an operation that completed (R170: STATUS 0). -/
def okResponse (r : Result) : Response :=
  { status := 0#4, errField := 0#3, errValue := 0#32, result := some r }

/-- The response of an operation that raised `e`: the code of its kind, its information, no result (R171). -/
def errResponse (e : Err) : Response :=
  { status := errStatus e, errField := errFieldOf e, errValue := errValueOf e, result := none }

/-- The response of an operation's outcome: its result or its first error (R171, R179). -/
def responseOf : Except Err Result → Response
  | .ok r => okResponse r
  | .error e => errResponse e

/-- The response joins those pending for the host (R28); nothing else changes (R31, R51). -/
def State.deliver (s : State) (x : Response) : State := { s with responses := s.responses ++ [x] }

/-- The operation in progress ends with exactly one response (R28, R50). -/
def complete (x : Except Err Result) (s : State) : StepResult := .next (s.deliver (responseOf x))

/-- Raising an error, the CORE's one exceptional event (R171, R184): the whole effect is the response. Nothing is saved
and no mode, mask or pc changes, since there is none. There is no return operation: after the response the CORE serves
the next request by the same rules (R185). -/
def raise (e : Err) (s : State) : StepResult := complete (.error e) s

/-- The error a request that names no legal operation gets (R65, R64, R79). -/
def rejectErr : Reject → Err
  | .reservedBits _ => .illegalOp
  | .unassignedOp _ => .illegalOp
  | .illegalTag _ _ => .type

/-! ## Reading pulses -/

/-- `PulseAt(s, i)`: the only way a unit reads a pulse (R45). -/
def pulseAt (s : List Pulse) (i : Nat) : Except Err Pulse :=
  match s[i]? with
  | some v => .ok v
  | none => .error (.range s.length)

/-- A header check: read pulse `i`, and raise TimingError naming `f` and the pulse when `window` fails (R110, R142). -/
def checkPulse (s : List Pulse) (i : Nat) (window : Pulse → Bool) (f : TimingField) : Except Err Unit :=
  match pulseAt s i with
  | .error e => .error e
  | .ok v => if window v then .ok () else .error (.timing f v)

/-- The polarity of a pulse (R41). -/
inductive Polarity where
  | mark
  | space
  deriving DecidableEq, Repr

/-- A mark at an even index, a space at an odd one (R41). -/
def polarityAt (i : Nat) : Polarity := if i % 2 = 0 then .mark else .space

/-! ## Requests in progress -/

/-- Which of `n` requests in progress answers next: the only one, or a free choice among several (R53, X6; log 2). -/
def finishIndex (turn n : Nat) : Nat := if n ≤ 1 then 0 else Config.nextToFinish turn % n

/-- Request `k` is no longer in progress, and the next choice is a new one. -/
def State.dequeue (s : State) (k : Nat) : State :=
  { s with inFlight := s.inFlight.eraseIdx k, turn := s.turn + 1 }

/-! ## What the host can do -/

/-- The host sends a request (R60). -/
def State.issue (s : State) (r : Request) : State := { s with inFlight := s.inFlight ++ [r] }

/-- The host takes the oldest response (R28; log 10). -/
def State.collect (s : State) : Option Response × State :=
  (s.responses.head?, { s with responses := s.responses.drop 1 })

/-- Reset while running: every request in progress is aborted without a response, and nothing is pending (R201, R200).
The parameters are those of the hardware (log 11). -/
def State.resetEvent (s : State) : State := { s with inFlight := [], responses := [] }

/-- An idle CORE with parameters `p` and the one request `r` in progress. -/
def State.alone (p : Params) (r : Request) : State :=
  { params := p, inFlight := [r], responses := [], turn := 0 }

end Sys2Proof.Machine
end

