-- ==== Sys2Proof/Machine/Nec.lean ====
section
/-! DEFINITION. The NEC codec: decoder, encoder and repeat-code classifier (41_nec.md). -/

namespace Sys2Proof.Machine

open Sys2Proof

/-! ## Decoder -/

/-- `NecHeader(s)`: the first three pulses, in index order (R110). -/
def necHeader (s : List Pulse) : Except Err Unit := do
  checkPulse s 0 (necWindow necLeadMark) .necLeadMark
  checkPulse s 1 (necWindow necLeadGap) .necLeadGap
  checkPulse s 2 (necWindow necBitGap) .necBitGap

/-- The data bit of a pulse: 1 when it is longer than the threshold, strictly (R112). -/
def necBit (v : Pulse) : Bool := decide (necThreshold < v.toNat)

/-- `n` data bits from bit `k` on, each entering the accumulator at the top while it shifts right (R112, R113). -/
def necAccumulate (s : List Pulse) : (n k : Nat) → BitVec 32 → Except Err (BitVec 32)
  | 0, _, acc => .ok acc
  | n + 1, k, acc => do
    let v ← pulseAt s (3 + 2 * k)
    necAccumulate s n (k + 1) (acc >>> 1 ||| (BitVec.ofBool (necBit v)).setWidth 32 <<< 31)

/-- `NecDecode(s)` (R115): the header, then the length (R111), then the bits. -/
def necDecode (s : List Pulse) : Except Err NecPayload := do
  necHeader s
  if s.length < necFrameLen then .error (.range s.length)
  else
    let acc ← necAccumulate s 32 0 0#32
    .ok (necBytesOf acc)

/-- NEC.DEC HEX: parse, then decode (R116). -/
def execNecDecHex (h : List Char) (s : State) : StepResult :=
  complete (do let x ← txParse h; (necDecode x).map Result.payload) s

/-- NEC.DEC PULSES (R115). -/
def execNecDecPulses (x : List Pulse) (s : State) : StepResult := complete ((necDecode x).map Result.payload) s

/-! ## Encoder -/

/-- The two pulses of data bit `b`: the bit-cell gap, then the data pulse (R69, R121). -/
def necCell (b : Bool) : List Pulse :=
  [BitVec.ofNat 16 necBitGap, BitVec.ofNat 16 (if b then necOne else necZero)]

/-- `NecFrame(P)` (R121). -/
def necFrame (p : NecPayload) : List Pulse :=
  [BitVec.ofNat 16 necLeadMark, BitVec.ofNat 16 necLeadGap]
    ++ (List.range 32).flatMap (fun k => necCell ((necWord p).getLsbD k))
    ++ [BitVec.ofNat 16 necBitGap]

/-- `NecEncode(X)` (R122). -/
def necEncode (x : List Byte) : Except Err (List Char) := do
  let p ← necNormalize x
  .ok (txFormat (necFrame p))

/-- NEC.ENC BYTES (R122). -/
def execNecEncBytes (x : List Byte) (s : State) : StepResult := complete ((necEncode x).map Result.hex) s

/-- NEC.ENC INT: TypeError when NEC_INT_TO_BYTES is not given; else the parameter turns the integer into bytes, which are
encoded, or into an error status, which is raised (R122, R64, D10; log 4). -/
def execNecEncInt (v : Field) (s : State) : StepResult :=
  if s.params.necIntGiven then
    complete (do let x ← Config.necIntToBytes v; (necEncode x).map Result.hex) s
  else raise .type s

/-! ## Repeat-code classifier -/

/-- `NecIsRepeat(s)`: exactly three pulses, each in its window (R125). -/
def necIsRepeat : List Pulse → Bool
  | [a, b, c] => necWindow necLeadMark a && necWindow necRepeatGap b && necWindow necBitGap c
  | _ => false

/-- NEC.REP HEX: a string that does not parse is no repeat code, and no error (R126). -/
def execNecRepHex (h : List Char) (s : State) : StepResult :=
  match txParse h with
  | .ok x => complete (.ok (.bit (necIsRepeat x))) s
  | .error _ => complete (.ok (.bit false)) s

/-- NEC.REP PULSES (R125). -/
def execNecRepPulses (x : List Pulse) (s : State) : StepResult := complete (.ok (.bit (necIsRepeat x))) s

end Sys2Proof.Machine
end

