-- ==== Sys2Proof/Machine/Rc6.lean ====
section
/-! DEFINITION. The RC6 codec: decoder and encoder (42_rc6.md). -/

namespace Sys2Proof.Machine

open Sys2Proof

/-! ## Decoder -/

/-- The working copy: an odd-length stream is padded with the sentinel (R141). -/
def rc6Padded (s : List Pulse) : List Pulse := if s.length % 2 = 1 then s ++ [rc6Pad] else s

/-- `Rc6Header(S)`, in index order (R142). -/
def rc6Header (s : List Pulse) : Except Err Unit := do
  checkPulse s 0 (fun v => inWin v rc6LeadMarkMin rc6LeadMarkMax) .rc6LeadMark
  checkPulse s 1 (fun v => inWin v rc6LeadGapMin rc6LeadGapMax) .rc6LeadGap

/-- The walk's next position: the special limit applies at position 10 only (R143). -/
def rc6Advance (pos : Nat) (v : Pulse) : Nat :=
  let limit := if pos = rc6TogglePos then rc6ToggleLimit else rc6ShortLimit
  if v.toNat < limit then pos + 2 else pos + 1

/-- The accumulator after a step at `pos`: shift, then OR the parity of the position (R144, R145). -/
def rc6Shift (acc : BitVec 21) (pos : Nat) : BitVec 21 := acc <<< 1 ||| BitVec.ofNat 21 (pos % 2)

/-- `n` steps of the walk from position `pos`; every step reads its pulse (R147). -/
def rc6Walk (s : List Pulse) : (n pos : Nat) → BitVec 21 → Except Err (BitVec 21)
  | 0, _, acc => .ok acc
  | n + 1, pos, acc => do
    let v ← pulseAt s pos
    rc6Walk s n (rc6Advance pos v) (rc6Shift acc pos)

/-- The record of the final accumulator; bit 20 is discarded (R146). -/
def rc6Unpack (acc : BitVec 21) : Rc6Record :=
  { info := acc.extractLsb' 0 8, control := acc.extractLsb' 8 8
    toggle := acc.extractLsb' 16 1, mode := acc.extractLsb' 17 3 }

/-- `Rc6Decode(s)` (R147). -/
def rc6Decode (x : List Pulse) : Except Err Rc6Record := do
  let s := rc6Padded x
  rc6Header s
  let acc ← rc6Walk s rc6Bits rc6WalkStart 0#21
  .ok (rc6Unpack acc)

/-- RC6.DEC HEX: parse, then decode (R148). -/
def execRc6DecHex (h : List Char) (s : State) : StepResult :=
  complete (do let x ← txParse h; (rc6Decode x).map Result.record) s

/-- RC6.DEC PULSES (R147). -/
def execRc6DecPulses (x : List Pulse) (s : State) : StepResult := complete ((rc6Decode x).map Result.record) s

/-! ## Encoder -/

/-- The 21-bit word: start bit, then the masked fields (R150, R151). -/
def rc6Word (f : Rc6Fields) : BitVec 21 :=
  1#21 <<< 20 ||| (f.mode &&& 7#32).setWidth 21 <<< 17 ||| (f.toggle &&& 1#32).setWidth 21 <<< 16
    ||| (f.control &&& 0xFF#32).setWidth 21 <<< 8 ||| (f.info &&& 0xFF#32).setWidth 21

/-- `Append(OUT, pol, w)`: a half-cell joins the last pulse when the polarities agree (R153). -/
def rc6Append (out : List Pulse) (pol : Polarity) (w : Nat) : List Pulse :=
  match out.getLast? with
  | some last =>
    if polarityAt (out.length - 1) = pol then out.dropLast ++ [last + BitVec.ofNat 16 w]
    else out ++ [BitVec.ofNat 16 w]
  | none => out ++ [BitVec.ofNat 16 w]

/-- The width of each half of bit `k`'s cell: 2T for the toggle bit, T otherwise (R75, R152). -/
def rc6HalfWidth (k : Nat) : Nat := if k = rc6ToggleBit then 2 * rc6T else rc6T

/-- A 1 bit is (mark, space), a 0 bit is (space, mark) (R152). -/
def rc6Cell (out : List Pulse) (b : Bool) (w : Nat) : List Pulse :=
  if b then rc6Append (rc6Append out .mark w) .space w else rc6Append (rc6Append out .space w) .mark w

/-- The cells of bits n-1 down to 0 (R152). -/
def rc6Cells (data : BitVec 21) : Nat → List Pulse → List Pulse
  | 0, out => out
  | k + 1, out => rc6Cells data k (rc6Cell out (data.getLsbD k) (rc6HalfWidth k))

/-- A frame ends on a mark: a last space is dropped (R154). -/
def rc6DropSpace (out : List Pulse) : List Pulse := if out.length % 2 = 0 then out.take (out.length - 1) else out

/-- `Rc6Frame(DATA)` (R152). -/
def rc6Frame (data : BitVec 21) : List Pulse :=
  rc6DropSpace (rc6Cells data rc6Bits [BitVec.ofNat 16 rc6LeadMark, BitVec.ofNat 16 rc6LeadGap])

/-- `Rc6Encode` (R155). -/
def rc6Encode (f : Rc6Fields) : List Char := txFormat (rc6Frame (rc6Word f))

/-- RC6.ENC FIELDS (R155, R76). -/
def execRc6EncFields (f : List Field) (s : State) : StepResult :=
  complete ((rc6FieldsOf f).map fun x => Result.hex (rc6Encode x)) s

/-- RC6.ENC INT (R155, R76). -/
def execRc6EncInt (v : Field) (s : State) : StepResult :=
  complete (.ok (.hex (rc6Encode (rc6FieldsOfInt v)))) s

end Sys2Proof.Machine
end

