-- ==== Sys2Proof/Machine/Transcoder.lean ====
section
/-! DEFINITION. The pulse-stream hex transcoder: TX.PARSE, TX.FORMAT, TX.TOL (40_transcoder.md). -/

namespace Sys2Proof.Machine

open Sys2Proof

/-- `TxTol(m, n, p, q)`: TypeError when q is 0, else the window (R94). -/
def txTol (m n p q : BitVec 16) : Except Err Bool :=
  if q = 0#16 then .error .type else .ok (tol m.toNat n.toNat p.toNat q.toNat)

/-- TX.PARSE HEX (R90). -/
def execTxParseHex (h : List Char) (s : State) : StepResult := complete ((txParse h).map Result.pulses) s

/-- TX.FORMAT PULSES (R91). -/
def execTxFormatPulses (x : List Pulse) (s : State) : StepResult := complete (.ok (.hex (txFormat x))) s

/-- TX.TOL TOL (R94). -/
def execTxTolTol (m n p q : BitVec 16) (s : State) : StepResult := complete ((txTol m n p q).map Result.bit) s

end Sys2Proof.Machine
end

