-- ==== Sys2Proof/Machine/Dispatch.lean ====
section
/-! DEFINITION. One arm per legal request of the opcode table. -/

namespace Sys2Proof.Machine

open Sys2Proof

def exec (i : Instr) (s : State) : Host.Outcome State Fault Refusal :=
  match i with
  | .txParseHex h => Sys2Proof.Machine.execTxParseHex h s
  | .txFormatPulses x => Sys2Proof.Machine.execTxFormatPulses x s
  | .txTolTol m n p q => Sys2Proof.Machine.execTxTolTol m n p q s
  | .necDecHex h => Sys2Proof.Machine.execNecDecHex h s
  | .necDecPulses x => Sys2Proof.Machine.execNecDecPulses x s
  | .necEncBytes x => Sys2Proof.Machine.execNecEncBytes x s
  | .necEncInt v => Sys2Proof.Machine.execNecEncInt v s
  | .necRepHex h => Sys2Proof.Machine.execNecRepHex h s
  | .necRepPulses x => Sys2Proof.Machine.execNecRepPulses x s
  | .rc6DecHex h => Sys2Proof.Machine.execRc6DecHex h s
  | .rc6DecPulses x => Sys2Proof.Machine.execRc6DecPulses x s
  | .rc6EncFields f => Sys2Proof.Machine.execRc6EncFields f s
  | .rc6EncInt v => Sys2Proof.Machine.execRc6EncInt v s

end Sys2Proof.Machine
end

