-- ==== Sys2Proof/Machine/Step.lean ====
section
/-! DEFINITION. One step: one request in progress is served, whole, and answers (R50, R60). -/

namespace Sys2Proof.Machine

open Sys2Proof

/-- One step. With no request in progress the CORE is idle and stays as it is (R200; log 5). Otherwise one request
answers, a free one among several (R53), and the checks of R79 come in their order: its operand's size (refused), then
RSV, OP and TAG (the decoder), then the operation itself. -/
def step (s : State) : Host.Outcome State Fault Refusal :=
  let k := finishIndex s.turn s.inFlight.length
  match s.inFlight[k]? with
  | none => .next s
  | some r =>
    if oversize s.params r.operand then .refused (.oversizeOperand r.operand.tag)
    else
      match decode r with
      | .ok i => exec i (s.dequeue k)
      | .error e => raise (rejectErr e) (s.dequeue k)

/-- `s` with the request of table word `w` as the one request in progress, so that the next step serves it. The CORE
fetches nothing (R21): this stands for the host issuing the request (log 6). -/
def State.withFetchWord (s : State) (nbits w : Nat) : State :=
  { s with inFlight := [Request.ofHeader (BitVec.ofNat 16 (w % 2 ^ nbits))] }

end Sys2Proof.Machine
end

