-- ==== Sys2Proof/Machine/HostRules.lean ====
section
/-! DEFINITION. The host's own rules, written as requests to the CORE: one request asked alone, the dispatch order of a
received line (R187), and a program of requests whose operands may be earlier results (R21, R77, R205). The host is outside
the CORE (R6); nothing here is called by `step`. -/

namespace Sys2Proof.Machine

open Sys2Proof

/-- The response a request gets when it is issued alone to an idle CORE; `none` where the model gives it no meaning (R58). -/
def ask (p : Params) (r : Request) : Option Response :=
  match step (State.alone p r) with
  | .next t => t.responses.head?
  | .fault _ => none
  | .refused _ => none

/-- What the host makes of a line (R187). -/
inductive Classification where
  | nec (p : NecPayload)
  | necRepeat
  | rc6 (r : Rc6Record)
  | nothing
  deriving DecidableEq, Repr

/-- `Classify(h)`: NEC decode, then NEC repeat, then RC6 decode; the first success wins (R187). `none` where a request is
refused. -/
def classify (p : Params) (h : List Char) : Option Classification :=
  match ask p (encode (.necDecHex h)), ask p (encode (.necRepHex h)), ask p (encode (.rc6DecHex h)) with
  | some a, some b, some c =>
    match a.result, b.result, c.result with
    | some (.payload x), _, _ => some (.nec x)
    | _, some (.bit true), _ => some .necRepeat
    | _, _, some (.record x) => some (.rc6 x)
    | _, _, _ => some .nothing
  | _, _, _ => none

/-- The operand of a step of a host program: a value, or the RESULT of an earlier step counted from 0 (R77, R205).
DESIGN CHOICE (log 17), safe: the spec shows a reused RESULT under HEX (R77) and under PULSES (95_test_vectors.md P1) and does
not list which RESULTs a later operand may reuse. The model lets every RESULT that is itself an operand of R62 be one: a hex
string, a pulse stream, or the four bytes of NEC.DEC; a bit and a record are no operand of R62. -/
inductive HostOperand where
  | value (x : Operand)
  | hexResult (step : Nat)
  | pulsesResult (step : Nat)
  | bytesResult (step : Nat)
  deriving DecidableEq, Repr

/-- A step of a host program. -/
structure HostStep where
  rsv : BitVec 5
  op : BitVec 8
  operand : HostOperand
  deriving DecidableEq, Repr

/-- The operand once the responses so far have arrived (R205); `none` when the step named gave no such RESULT. -/
def HostOperand.resolve (done : List Response) : HostOperand → Option Operand
  | .value x => some x
  | .hexResult k =>
    match (done[k]?).bind Response.result with
    | some (.hex h) => some (.hex h)
    | _ => none
  | .pulsesResult k =>
    match (done[k]?).bind Response.result with
    | some (.pulses s) => some (.pulses s)
    | _ => none
  | .bytesResult k =>
    match (done[k]?).bind Response.result with
    | some (.payload p) => some (.bytes [p.b0, p.b1, p.b2, p.b3])
    | _ => none

/-- A host program: requests issued one after another, each after the response before it (R205). The host's step index
plays the part of a program counter (R21). `none` when an operand is missing or a request is refused. -/
def runProgram (p : Params) : List HostStep → (done : List Response) → Option (List Response)
  | [], done => some done
  | st :: rest, done =>
    match st.operand.resolve done with
    | none => none
    | some x =>
      match ask p { rsv := st.rsv, op := st.op, operand := x } with
      | none => none
      | some y => runProgram p rest (done ++ [y])

end Sys2Proof.Machine
end

