-- ==== Sys2Proof/Machine/Assembler.lean ====
section
/-! DEFINITION. The assembler's writing of a request (R77) and the source's function names as requests (R78). -/

namespace Sys2Proof.Machine

open Sys2Proof

/-- MNEMONIC (R63). -/
def mnemonicText : Op → String
  | .txParse => "TX.PARSE"
  | .txFormat => "TX.FORMAT"
  | .txTol => "TX.TOL"
  | .necDec => "NEC.DEC"
  | .necEnc => "NEC.ENC"
  | .necRep => "NEC.REP"
  | .rc6Dec => "RC6.DEC"
  | .rc6Enc => "RC6.ENC"

/-- A bracketed list of numbers (R77). Numbers are written in decimal (R9). -/
def listText (l : List Nat) : String := "[" ++ String.intercalate "," (l.map Nat.repr) ++ "]"

/-- TAGNAME:operand (R62, R77); the reserved tags have no name. -/
def operandText : Operand → Option String
  | .hex h => some ("HEX:\"" ++ String.ofList h ++ "\"")
  | .pulses s => some ("PULSES:" ++ listText (s.map BitVec.toNat))
  | .bytes x => some ("BYTES:" ++ listText (x.map BitVec.toNat))
  | .fields f => some ("FIELDS:" ++ listText (f.map BitVec.toNat))
  | .int v => some ("INT:" ++ Nat.repr v.toNat)
  | .tol m n p q => some ("TOL:" ++ listText [m.toNat, n.toNat, p.toNat, q.toNat])
  | .reserved6 => none
  | .reserved7 => none

/-- A request as the assembler writes it, MNEMONIC TAGNAME:operand (R77). DESIGN CHOICE (log 15), safe: R77's syntax has
no place for RSV, so a request with RSV other than 0 has no text; neither has one with an unassigned OP or a reserved TAG. -/
def requestText (r : Request) : Option String :=
  if r.rsv ≠ 0#5 then none
  else
    match Op.ofCode r.op, operandText r.operand with
    | some o, some x => some (mnemonicText o ++ " " ++ x)
    | _, _ => none

/-- The source's calls (R78). -/
inductive SourceCall where
  | parse (h : List Char)
  | format (s : List Pulse)
  | tolerance (measured nominal p q : BitVec 16)
  | necDecodeText (h : List Char)
  | necDecode (s : List Pulse)
  | necEncode (x : List Byte)
  | necEncodeInt (v : Field)
  | isRepeatText (h : List Char)
  | isRepeat (s : List Pulse)
  | rc6DecodeText (h : List Char)
  | rc6Decode (s : List Pulse)
  /-- `rc6_encode(info, control=0, toggle=0, mode=0)`, a field left out being its default. -/
  | rc6Encode (info : Field) (control toggle mode : Option Field)
  /-- `rc6_encode((info, ...))`, a positional tuple. -/
  | rc6EncodeTuple (f : List Field)
  | rc6EncodeInt (v : Field)
  deriving DecidableEq, Repr

/-- The request of a source call (R78). -/
def SourceCall.instr : SourceCall → Instr
  | .parse h => .txParseHex h
  | .format s => .txFormatPulses s
  | .tolerance m n p q => .txTolTol m n p q
  | .necDecodeText h => .necDecHex h
  | .necDecode s => .necDecPulses s
  | .necEncode x => .necEncBytes x
  | .necEncodeInt v => .necEncInt v
  | .isRepeatText h => .necRepHex h
  | .isRepeat s => .necRepPulses s
  | .rc6DecodeText h => .rc6DecHex h
  | .rc6Decode s => .rc6DecPulses s
  | .rc6Encode i c t m => .rc6EncFields [i, c.getD 0#32, t.getD 0#32, m.getD 0#32]
  | .rc6EncodeTuple f => .rc6EncFields f
  | .rc6EncodeInt v => .rc6EncInt v

end Sys2Proof.Machine
end

