-- ==== Sys2Proof/Safety.lean ====
section
/-! DEFINITION. What a safe run is: every response pending is one the spec allows, and the parameters are sizes the spec
allows. -/

namespace Sys2Proof.Machine

open Sys2Proof

/-- The output alphabet of the transcoder (R26). -/
def isOutputDigit (c : Char) : Bool :=
  ['0', '1', '2', '3', '4', '5', '6', '7', '8', '9', 'a', 'b', 'c', 'd', 'e', 'f'].contains c

/-- A hex result is whole groups of four lowercase digits (R66, R67); other results are right by their type. -/
def resultWf : Result → Bool
  | .hex h => h.all isOutputDigit && decide (h.length % 4 = 0)
  | .pulses _ => true
  | .bit _ => true
  | .payload _ => true
  | .record _ => true

/-- A response as R28, R29 and R170 allow it: a result exactly when STATUS is OK, information only where the kind records
it, and no reserved STATUS or ERR_FIELD. -/
def responseWf (x : Response) : Bool :=
  match x.result with
  | some r => decide (x.status = 0#4) && decide (x.errField = 0#3) && decide (x.errValue = 0#32) && resultWf r
  | none =>
    if x.status = 1#4 ∨ x.status = 4#4 ∨ x.status = 6#4 then decide (x.errField = 0#3) && decide (x.errValue = 0#32)
    else if x.status = 2#4 then decide (x.errField.toNat ≤ 4) && decide (x.errValue.toNat < 2 ^ 16)
    else if x.status = 3#4 ∨ x.status = 5#4 then decide (x.errField = 0#3)
    else false

/-- The invariant: sizes as D17 asks, and every response pending well formed. -/
def State.Inv (s : State) : Prop := s.params.wf = true ∧ ∀ x ∈ s.responses, responseWf x = true

/-- Every request in progress is within its size limit (R58). -/
def State.admitted (s : State) : Prop := ∀ r ∈ s.inFlight, oversize s.params r.operand = false

/-- A step's answer is safe when it is a next state that keeps the invariant, or the refusal of an oversize operand: no
fault, and no other refusal (R58, R206). -/
def safeResult : StepResult → Prop
  | .next t => t.Inv
  | .fault _ => False
  | .refused (.oversizeOperand _) => True
  | .refused _ => False

end Sys2Proof.Machine
end

