-- ==== Sys2Proof/WellFormed.lean ====
section
/-! DEFINITION. Which requests a CORE with given parameters admits: an operand within its size limit (R58, R62).
FIELDS has no limit (R62: any n), and INT and TOL are of one size. -/

namespace Sys2Proof

/-- The operand is within its limit: MAX_HEX characters, MAX_PULSES pulses, MAX_BYTES bytes (R58). -/
def WellFormed (p : Params) : Instr → Bool
  | .txParseHex h => decide (h.length ≤ p.maxHex)
  | .txFormatPulses s => decide (s.length ≤ p.maxPulses)
  | .txTolTol _ _ _ _ => true
  | .necDecHex h => decide (h.length ≤ p.maxHex)
  | .necDecPulses s => decide (s.length ≤ p.maxPulses)
  | .necEncBytes x => decide (x.length ≤ p.maxBytes)
  | .necEncInt _ => true
  | .necRepHex h => decide (h.length ≤ p.maxHex)
  | .necRepPulses s => decide (s.length ≤ p.maxPulses)
  | .rc6DecHex h => decide (h.length ≤ p.maxHex)
  | .rc6DecPulses s => decide (s.length ≤ p.maxPulses)
  | .rc6EncFields _ => true
  | .rc6EncInt _ => true

end Sys2Proof
end

