-- ==== Sys2Proof/Certificates/Slice0/Obligations.lean ====
section
/-! DEFINITION. The statements for the provers. First the spec's own words that several statements share, written from the
rules and not from the model; then one definition per statement. -/

namespace Sys2Proof.Spec

open Sys2Proof Sys2Proof.Machine

/-- A response with STATUS 0 and a result (R28, R170). -/
def okResp (r : Result) : Response := { status := 0#4, errField := 0#3, errValue := 0#32, result := some r }

/-- An error response: STATUS, ERR_FIELD, ERR_VALUE, no result (R28, R170). -/
def errResp (status : BitVec 4) (field : BitVec 3) (value : BitVec 32) : Response :=
  { status := status, errField := field, errValue := value, result := none }

/-- The instruction completes, its one effect is the response `x`: everything else of the state is as before (R31, R51). -/
def Answers (i : Instr) (s : State) (x : Response) : Prop :=
  exec i s = .next { s with responses := s.responses ++ [x] }

/-- lo <= v <= hi (R140). -/
def Within (v : Pulse) (lo hi : Nat) : Prop := lo ≤ v.toNat ∧ v.toNat ≤ hi

/-- The ten digits and the six letters, lowercase (R26). -/
def lowerDigits : List Char :=
  ['0', '1', '2', '3', '4', '5', '6', '7', '8', '9', 'a', 'b', 'c', 'd', 'e', 'f']

/-- The same with capitals (R26). -/
def upperDigits : List Char :=
  ['0', '1', '2', '3', '4', '5', '6', '7', '8', '9', 'A', 'B', 'C', 'D', 'E', 'F']

/-- R93: a character of 0123456789abcdefABCDEF. -/
def IsHexDigit (c : Char) : Prop := c ∈ lowerDigits ∨ c ∈ upperDigits

/-- R93: the value of a digit is its place in its alphabet. -/
def digitValue (c : Char) : Nat := if c ∈ lowerDigits then lowerDigits.idxOf c else upperDigits.idxOf c

/-- The assigned operation codes (R63). -/
def opCodes : List (BitVec 8) := [0x01#8, 0x02#8, 0x03#8, 0x10#8, 0x11#8, 0x12#8, 0x20#8, 0x21#8]

/-- The pairs of OP and TAG of R64, NEC.ENC with INT among them. -/
def legalPairs : List (BitVec 8 × BitVec 3) :=
  [(0x01#8, 0#3), (0x02#8, 1#3), (0x03#8, 5#3), (0x10#8, 0#3), (0x10#8, 1#3), (0x11#8, 2#3), (0x11#8, 4#3),
   (0x12#8, 0#3), (0x12#8, 1#3), (0x20#8, 0#3), (0x20#8, 1#3), (0x21#8, 3#3), (0x21#8, 4#3)]

/-- `i` is a decoder's PULSES form on the stream `x`, or its HEX form on a string that parses to `x` (R116, R148). -/
def Reads (pulsesForm : List Pulse → Instr) (hexForm : List Char → Instr) (i : Instr) (x : List Pulse) : Prop :=
  i = pulsesForm x ∨ ∃ h, i = hexForm h ∧ txParse h = .ok x

/-- R72: the payload each of the three forms stands for. -/
def Normalized (x : List Byte) (p : NecPayload) : Prop :=
  (∃ a c, x = [a, c] ∧ p = ⟨a, a ^^^ 0xFF#8, c, c ^^^ 0xFF#8⟩) ∨
  (∃ a b c, x = [a, b, c] ∧ p = ⟨a, b, c, c ^^^ 0xFF#8⟩) ∨
  (∃ a b c d, x = [a, b, c, d] ∧ p = ⟨a, b, c, d⟩)

/-- R44: bit k of the payload word is bit k mod 8 of byte k / 8. -/
def payloadBit (p : NecPayload) (k : Nat) : Bool := (([p.b0, p.b1, p.b2, p.b3])[k / 8]?.getD 0#8).getLsbD (k % 8)

/-- R76: the fields each operand form of RC6.ENC stands for. -/
def FieldsOf (i : Instr) (f : Rc6Fields) : Prop :=
  (∃ a, i = .rc6EncFields [a] ∧ f = ⟨a, 0#32, 0#32, 0#32⟩) ∨
  (∃ a b, i = .rc6EncFields [a, b] ∧ f = ⟨a, b, 0#32, 0#32⟩) ∨
  (∃ a b c, i = .rc6EncFields [a, b, c] ∧ f = ⟨a, b, c, 0#32⟩) ∨
  (∃ a b c d, i = .rc6EncFields [a, b, c, d] ∧ f = ⟨a, b, c, d⟩) ∨
  (∃ a, i = .rc6EncInt a ∧ f = ⟨a, 0#32, 0#32, 0#32⟩)

/-- The low `w` bits of a field, most significant first. -/
def msbFirst (w : Nat) (v : Field) : List Bool := (List.range w).reverse.map v.getLsbD

/-- R74, R46: the 21 bits of the RC6 word in the order they are sent: start, mode, toggle, control, info. -/
def sentBits (f : Rc6Fields) : List Bool :=
  [true] ++ msbFirst 3 f.mode ++ msbFirst 1 f.toggle ++ msbFirst 8 f.control ++ msbFirst 8 f.info

/-- R75: the frame as a signal, one entry per T, `true` for mark: the leader, then per bit (mark, space) for 1 and (space,
mark) for 0, each half one T wide, two for the toggle bit, the fifth sent; R154: no last space. -/
def frameSignal (f : Rc6Fields) : List Bool :=
  let cells := (sentBits f).zipIdx.flatMap fun b =>
    let w := if b.2 = 4 then 2 else 1
    List.replicate w b.1 ++ List.replicate w (!b.1)
  let all := List.replicate 6 true ++ List.replicate 2 false ++ cells
  if f.info.getLsbD 0 then all.dropLast else all

/-- R41: a stream as a signal, one entry per T = 444, mark at even indices. -/
def streamSignal (s : List Pulse) : List Bool :=
  s.zipIdx.flatMap fun v => List.replicate (v.1.toNat / 444) (decide (v.2 % 2 = 0))

/-- R143: the walk's next position from position `pos`, reading the stream `s`. -/
def nextPos (s : List Pulse) (pos : Nat) : Nat :=
  if (s[pos]?.getD 0#16).toNat < (if pos = 10 then 1332 else 666) then pos + 2 else pos + 1

/-- R141: an odd-length stream with 65535 after it. -/
def padded (x : List Pulse) : List Pulse := if x.length % 2 = 1 then x ++ [65535#16] else x

/-- R157: the field sets that survive an encode and a decode. -/
def roundTrips (r : Rc6Record) : Prop :=
  (r.mode = 0#3 ∧ r.toggle = 0#1) ∨
  (r.mode = 0#3 ∧ r.toggle = 1#1 ∧ r.control.extractLsb' 6 2 = 0b00#2) ∨
  ((r.mode = 1#3 ∨ r.mode = 2#3 ∨ r.mode = 3#3) ∧ r.toggle = 0#1 ∧
    r.control.extractLsb' 5 3 ∈ [0b100#3, 0b110#3, 0b111#3]) ∨
  ((r.mode = 1#3 ∨ r.mode = 3#3) ∧ r.toggle = 1#1 ∧ r.control.extractLsb' 6 2 = 0b00#2) ∨
  (r.mode = 2#3 ∧ r.toggle = 1#1 ∧
    r.control.extractLsb' 4 4 ∈ [0b0000#4, 0b0001#4, 0b0100#4, 0b0110#4, 0b0111#4])

/-- The FIELDS operand of a record. -/
def recordFields (r : Rc6Record) : List Field :=
  [r.info.setWidth 32, r.control.setWidth 32, r.toggle.setWidth 32, r.mode.setWidth 32]

/-- R173: the STATUS values of each operation, once the request checks have passed; NEC.ENC with INT is R64's TypeError or
whatever the parameter defines. -/
def statuses : Instr → List (BitVec 4)
  | .txParseHex _ => [0#4, 1#4]
  | .txFormatPulses _ => [0#4]
  | .txTolTol _ _ _ _ => [0#4, 4#4]
  | .necDecHex _ => [0#4, 1#4, 2#4, 5#4]
  | .necDecPulses _ => [0#4, 2#4, 5#4]
  | .necEncBytes _ => [0#4, 3#4]
  | .necEncInt _ => [0#4, 1#4, 2#4, 3#4, 4#4, 5#4, 6#4]
  | .necRepHex _ => [0#4]
  | .necRepPulses _ => [0#4]
  | .rc6DecHex _ => [0#4, 1#4, 2#4, 5#4]
  | .rc6DecPulses _ => [0#4, 2#4, 5#4]
  | .rc6EncFields _ => [0#4, 4#4]
  | .rc6EncInt _ => [0#4]

/-- R66: the format of each operation's RESULT; hex strings are lowercase digits. -/
def resultFormat : Instr → Result → Prop
  | .txParseHex _, r => ∃ s, r = .pulses s
  | .txFormatPulses _, r => ∃ h, r = .hex h ∧ ∀ c ∈ h, c ∈ lowerDigits
  | .txTolTol _ _ _ _, r => ∃ b, r = .bit b
  | .necDecHex _, r => ∃ p, r = .payload p
  | .necDecPulses _, r => ∃ p, r = .payload p
  | .necEncBytes _, r => ∃ h, r = .hex h ∧ ∀ c ∈ h, c ∈ lowerDigits
  | .necEncInt _, r => ∃ h, r = .hex h ∧ ∀ c ∈ h, c ∈ lowerDigits
  | .necRepHex _, r => ∃ b, r = .bit b
  | .necRepPulses _, r => ∃ b, r = .bit b
  | .rc6DecHex _, r => ∃ x, r = .record x
  | .rc6DecPulses _, r => ∃ x, r = .record x
  | .rc6EncFields _, r => ∃ h, r = .hex h ∧ ∀ c ∈ h, c ∈ lowerDigits
  | .rc6EncInt _, r => ∃ h, r = .hex h ∧ ∀ c ∈ h, c ∈ lowerDigits

end Sys2Proof.Spec

open Sys2Proof Sys2Proof.Machine Sys2Proof.Spec

/-! ## Reset, state and steps -/

/-- R200, R32: after reset no request is in progress and no response is pending, and the constants have the values of R24 and
R25. -/
def Obligations.ResetIsIdleWithItsConstants : Prop :=
  State.reset.inFlight = [] ∧ State.reset.responses = [] ∧
  [necLeadMark, necLeadGap, necBitGap, necZero, necOne, necRepeatGap, necTolP, necTolQ, necThreshold, necFrameLen] =
    [9000, 4500, 562, 562, 1600, 2250, 1, 4, 1081, 67] ∧
  [rc6T, rc6LeadMarkMin, rc6LeadMarkMax, rc6LeadGapMin, rc6LeadGapMax, rc6ShortLimit, rc6TogglePos, rc6ToggleLimit,
    rc6Pad.toNat, rc6WalkStart, rc6Bits, rc6LeadMark, rc6LeadGap, rc6ToggleBit] =
    [444, 2442, 2886, 666, 1110, 666, 10, 1332, 65535, 2, 21, 2664, 888, 16]

/-- The invariant holds at reset: the sizes are as D17 asks, and no response is pending. -/
def Obligations.InvariantHoldsAtReset : Prop := State.reset.Inv

/-- Every step keeps the invariant: the sizes stay as D17 asks, and every response pending has a STATUS and an ERR_FIELD
that are not reserved, a result exactly when STATUS is OK, no information its kind does not record, and hex results of
whole groups of lowercase digits (R28, R29, R67, R170). -/
def Obligations.StepKeepsResponsesWellFormed : Prop :=
  ∀ s t : State, s.Inv → step s = .next t → t.Inv

/-- R31, R51, R23: a step answers at most one request: parameters stay, earlier responses stay, at most one response and
one fewer request in progress. -/
def Obligations.StepAnswersAtMostOneRequest : Prop :=
  ∀ s t : State, step s = .next t →
    t.params = s.params ∧
    ((s.inFlight = [] ∧ t = s) ∨
      ∃ k x, k < s.inFlight.length ∧ t.inFlight = s.inFlight.eraseIdx k ∧ t.responses = s.responses ++ [x] ∧
        t.turn = s.turn + 1)

/-- The step runs the instruction the decoder reads: the request that answers leaves the requests in progress, and exec runs
on it. With one request in progress it is that one; `withFetchWord` makes it so. -/
def Obligations.StepRunsDecodedInstruction : Prop :=
  (∀ (s : State) (r : Request) (i : Instr),
    s.inFlight[finishIndex s.turn s.inFlight.length]? = some r → decode r = .ok i → WellFormed s.params i = true →
      step s = exec i (s.dequeue (finishIndex s.turn s.inFlight.length))) ∧
  (∀ (s : State) (r : Request) (i : Instr), s.inFlight = [r] → decode r = .ok i → WellFormed s.params i = true →
      step s = exec i { s with inFlight := [], turn := s.turn + 1 }) ∧
  (∀ (s : State) (w : Nat) (i : Instr), decodeTableWord 16 w = some i →
      step (s.withFetchWord 16 w) = exec i { s with inFlight := [], turn := s.turn + 1 })

/-- R200: with no request in progress the CORE stays as it is. The model's own reading of "idle" (log 5). -/
def Obligations.IdleCoreStaysIdle : Prop := ∀ s : State, s.inFlight = [] → step s = .next s

/-- R206, R65: no request hangs the CORE: a step goes on, unless the request that answers has an operand over its limit (R58). -/
def Obligations.EveryAdmittedRequestAnswers : Prop :=
  (∀ s : State, s.admitted → ∃ t, step s = .next t) ∧
  (∀ s : State, (∃ t, step s = .next t) ∨
    ∃ r ∈ s.inFlight, oversize s.params r.operand = true ∧ step s = .refused (.oversizeOperand r.operand.tag)) ∧
  (∀ s : State, s.Inv → safeResult (step s))

/-- R52: for any set of concurrent requests, each gets the response it gets when it is issued alone, whatever the order. -/
def Obligations.ConcurrentRequestsAnswerAsAlone : Prop :=
  ∀ s : State, s.admitted → ∃ (t : State) (new : List Response),
    Host.Core.run Sys2Proof.core s.inFlight.length s = .next t ∧
    t.inFlight = [] ∧ t.params = s.params ∧ t.responses = s.responses ++ new ∧
    (new.map some).Perm (s.inFlight.map (ask s.params))

/-- R201: reset aborts what is in progress; a request issued again gets the response the aborted one would have had. Reset as
a host input is the model's choice (log 11). -/
def Obligations.ResetAbortsAndReissueAnswersAlike : Prop :=
  ∀ (s : State) (r : Request) (x : Response), r ∈ s.inFlight → ask s.params r = some x →
    s.resetEvent.inFlight = [] ∧ s.resetEvent.responses = [] ∧
    step (s.resetEvent.issue r) =
      .next { params := s.params, inFlight := [], responses := [x], turn := s.turn + 1 }

/-! ## Requests -/

/-- R61: the fields of the header word, and a word of another length names nothing. The last two clauses rest on the model's
own choice (log 6): a table word is the request with that word as its header and the zero operand of its TAG. -/
def Obligations.HeaderFieldsAreTheWordsBits : Prop :=
  (∀ r : Request, opField r.header = r.op ∧ tagField r.header = r.operand.tag ∧ rsvField r.header = r.rsv) ∧
  (∀ h : Header, h.toNat = (rsvField h).toNat * 2 ^ 11 + (tagField h).toNat * 2 ^ 8 + (opField h).toNat) ∧
  (∀ h : Header, (Request.ofHeader h).header = h) ∧
  (∀ nbits w : Nat, nbits ≠ 16 ∨ 2 ^ 16 ≤ w → decodeTableWord nbits w = none)

/-- The thirteen words of the opcode table decode to their instructions, with operands of zeros. -/
def Obligations.TableWordsDecode : Prop :=
  decodeTableWord 16 0b0000000000000001 = some (.txParseHex []) ∧
  decodeTableWord 16 0b0000000100000010 = some (.txFormatPulses []) ∧
  decodeTableWord 16 0b0000010100000011 = some (.txTolTol 0 0 0 0) ∧
  decodeTableWord 16 0b0000000000010000 = some (.necDecHex []) ∧
  decodeTableWord 16 0b0000000100010000 = some (.necDecPulses []) ∧
  decodeTableWord 16 0b0000001000010001 = some (.necEncBytes []) ∧
  decodeTableWord 16 0b0000010000010001 = some (.necEncInt 0) ∧
  decodeTableWord 16 0b0000000000010010 = some (.necRepHex []) ∧
  decodeTableWord 16 0b0000000100010010 = some (.necRepPulses []) ∧
  decodeTableWord 16 0b0000000000100000 = some (.rc6DecHex []) ∧
  decodeTableWord 16 0b0000000100100000 = some (.rc6DecPulses []) ∧
  decodeTableWord 16 0b0000001100100001 = some (.rc6EncFields []) ∧
  decodeTableWord 16 0b0000010000100001 = some (.rc6EncInt 0)

/-- Decode and encode agree, in both directions: a request decodes to `i` exactly when it is the request `i` encodes to; its
header is the opcode table's word. -/
def Obligations.DecodeIsInverseOfEncode : Prop :=
  (∀ (r : Request) (i : Instr), decode r = .ok i ↔ r = encode i) ∧
  (∀ i : Instr, (encode i).header = encodeHeader i)

/-- R77: H = (TAG << 8) | OP, followed by the operand. -/
def Obligations.EncodedHeaderIsTagThenOp : Prop :=
  ∀ i : Instr, (encode i).header = ((encode i).operand.tag.setWidth 16 <<< 8) ||| (encode i).op.setWidth 16 ∧
    (encode i).operand = i.operand

/-- R79, R65, R64: the request checks in their order, for the only request in progress: an oversize operand is refused
whatever the header; then RSV, then OP, then TAG; then the operation runs. -/
def Obligations.RequestChecksInOrder : Prop :=
  ∀ (s : State) (r : Request), s.inFlight = [r] →
    (oversize s.params r.operand = true → step s = .refused (.oversizeOperand r.operand.tag)) ∧
    (oversize s.params r.operand = false →
      (r.rsv ≠ 0#5 → step s = .next
        { s with inFlight := [], turn := s.turn + 1, responses := s.responses ++ [errResp 6#4 0#3 0#32] }) ∧
      (r.rsv = 0#5 → r.op ∉ opCodes → step s = .next
        { s with inFlight := [], turn := s.turn + 1, responses := s.responses ++ [errResp 6#4 0#3 0#32] }) ∧
      (r.rsv = 0#5 → r.op ∈ opCodes →
        ((r.op, r.operand.tag) ∉ legalPairs ∨
          (r.op = 0x11#8 ∧ r.operand.tag = 4#3 ∧ s.params.necIntGiven = false)) → step s = .next
        { s with inFlight := [], turn := s.turn + 1, responses := s.responses ++ [errResp 4#4 0#3 0#32] }) ∧
      (r.rsv = 0#5 → (r.op, r.operand.tag) ∈ legalPairs →
        ∃ i, r = encode i ∧ step s = exec i { s with inFlight := [], turn := s.turn + 1 }))

/-- R58: a request whose hex operand is longer than MAX_HEX = 4 x MAX_PULSES, whose stream is longer than MAX_PULSES or
whose bytes are more than MAX_BYTES is refused and gets no response; no other request is. -/
def Obligations.OversizeOperandIsRefused : Prop :=
  ∀ (s : State) (r : Request), s.inFlight = [r] →
    (((∃ h, r.operand = .hex h ∧ 4 * s.params.maxPulses < h.length) ∨
      (∃ x, r.operand = .pulses x ∧ s.params.maxPulses < x.length) ∨
      (∃ x, r.operand = .bytes x ∧ s.params.maxBytes < x.length)) ↔ ∃ q, step s = .refused q) ∧
    (∀ q, step s = .refused q → q = .oversizeOperand r.operand.tag)

/-- R170, R171, R174: raising an error ends the operation with the code of its kind, the information of its kind and no
result; nothing else changes. -/
def Obligations.RaiseRecordsKindAndInformation : Prop :=
  ∀ (s : State) (v : Pulse) (n : Nat),
    raise .format s = .next { s with responses := s.responses ++ [errResp 1#4 0#3 0#32] } ∧
    raise (.timing .necLeadMark v) s = .next { s with responses := s.responses ++ [errResp 2#4 0#3 (v.setWidth 32)] } ∧
    raise (.timing .necLeadGap v) s = .next { s with responses := s.responses ++ [errResp 2#4 1#3 (v.setWidth 32)] } ∧
    raise (.timing .necBitGap v) s = .next { s with responses := s.responses ++ [errResp 2#4 2#3 (v.setWidth 32)] } ∧
    raise (.timing .rc6LeadMark v) s = .next { s with responses := s.responses ++ [errResp 2#4 3#3 (v.setWidth 32)] } ∧
    raise (.timing .rc6LeadGap v) s = .next { s with responses := s.responses ++ [errResp 2#4 4#3 (v.setWidth 32)] } ∧
    raise (.length n) s = .next { s with responses := s.responses ++ [errResp 3#4 0#3 (BitVec.ofNat 32 n)] } ∧
    raise .type s = .next { s with responses := s.responses ++ [errResp 4#4 0#3 0#32] } ∧
    raise (.range n) s = .next { s with responses := s.responses ++ [errResp 5#4 0#3 (BitVec.ofNat 32 n)] } ∧
    raise .illegalOp s = .next { s with responses := s.responses ++ [errResp 6#4 0#3 0#32] }

/-- R50, R31: every instruction completes with exactly one response, which is a function of the request alone (and of
whether NEC_INT_TO_BYTES is given); parameters, other requests in progress and earlier responses are unchanged. -/
def Obligations.EveryInstructionAnswersAsFunctionOfItsRequest : Prop :=
  ∀ (i : Instr) (s t : State), s.params.necIntGiven = t.params.necIntGiven →
    ∃ x, Answers i s x ∧ Answers i t x

/-- R173: the STATUS values each operation can return. -/
def Obligations.StatusesOfEachOperation : Prop :=
  ∀ (i : Instr) (s : State), ∃ x, Answers i s x ∧ x.status ∈ statuses i

/-- R66, R171: on STATUS 0 RESULT has the format of the operation; on any other STATUS there is none. -/
def Obligations.ResultFormatsOfEachOperation : Prop :=
  ∀ (i : Instr) (s : State), ∃ x, Answers i s x ∧
    ((x.status = 0#4 ∧ ∃ r, x.result = some r ∧ resultFormat i r) ∨ (x.status ≠ 0#4 ∧ x.result = none))

/-! ## Transcoder -/

/-- R45: the read primitive. -/
def Obligations.PulseAtReadsOrRaisesRange : Prop :=
  ∀ (x : List Pulse) (i : Nat),
    (∀ h : i < x.length, pulseAt x i = .ok x[i]) ∧ (x.length ≤ i → pulseAt x i = .error (.range x.length))

/-- R90, R93, R48: TX.PARSE gives one pulse per group of four digits, low byte first, high nibble first; any other string
gives FORMAT_ERROR. -/
def Obligations.TxParseReadsGroups : Prop :=
  ∀ (h : List Char) (s : State),
    (encode (.txParseHex h)).header = 0x0001#16 ∧
    (h.length % 4 = 0 → (∀ c ∈ h, IsHexDigit c) → ∃ out : List Pulse,
      Answers (.txParseHex h) s (okResp (.pulses out)) ∧ out.length = h.length / 4 ∧
      ∀ (g : Nat) (a b c d : Char), h[4 * g]? = some a → h[4 * g + 1]? = some b → h[4 * g + 2]? = some c →
        h[4 * g + 3]? = some d →
        out[g]? = some (BitVec.ofNat 16 (256 * (16 * digitValue c + digitValue d) + (16 * digitValue a + digitValue b)))) ∧
    ((h.length % 4 ≠ 0 ∨ ∃ c ∈ h, ¬ IsHexDigit c) → Answers (.txParseHex h) s (errResp 1#4 0#3 0#32))

/-- R91, R67, R43: TX.FORMAT gives four lowercase digits per pulse, low byte first, high nibble first. -/
def Obligations.TxFormatWritesGroups : Prop :=
  ∀ (x : List Pulse) (s : State), (encode (.txFormatPulses x)).header = 0x0102#16 ∧
    ∃ h : List Char, Answers (.txFormatPulses x) s (okResp (.hex h)) ∧ h.length = 4 * x.length ∧
      ∀ (g : Nat) (v : Pulse), x[g]? = some v →
        h[4 * g]? = lowerDigits[v.toNat / 16 % 16]? ∧ h[4 * g + 1]? = lowerDigits[v.toNat % 16]? ∧
        h[4 * g + 2]? = lowerDigits[v.toNat / 4096]? ∧ h[4 * g + 3]? = lowerDigits[v.toNat / 256 % 16]?

/-- R92: the transcoder laws. -/
def Obligations.TranscoderLaws : Prop :=
  (∀ x : List Pulse, txParse (txFormat x) = .ok x) ∧
  (∀ (h : List Char) (x : List Pulse), txParse h = .ok x → txFormat x = h.map Char.toLower) ∧
  (∃ (h h' : List Char) (x : List Pulse), h ≠ h' ∧ txParse h = .ok x ∧ txParse h' = .ok x) ∧
  Function.Injective txFormat

/-- R14: the tolerance predicate, in exact integers and as the source's fractions; both ends inclusive. -/
def Obligations.ToleranceWindowIsExact : Prop :=
  ∀ m n p q : Nat, 1 ≤ q →
    (tol m n p q = true ↔ (n : ℤ) * ((q : ℤ) - p) ≤ (m : ℤ) * q ∧ (m : ℤ) * q ≤ (n : ℤ) * ((q : ℤ) + p)) ∧
    (tol m n p q = true ↔ (n : ℚ) * (1 - (p : ℚ) / q) ≤ m ∧ (m : ℚ) ≤ (n : ℚ) * (1 + (p : ℚ) / q))

/-- R94: TX.TOL answers the window, TYPE_ERROR when q is 0; p = 0 accepts only m = n, n = 0 accepts only m = 0, and p > q
leaves the upper bound only. -/
def Obligations.TxTolAnswersWindow : Prop :=
  ∀ (m n p q : BitVec 16) (s : State),
    (encode (.txTolTol m n p q)).header = 0x0503#16 ∧
    (q = 0#16 → Answers (.txTolTol m n p q) s (errResp 4#4 0#3 0#32)) ∧
    (q ≠ 0#16 → ∃ b, Answers (.txTolTol m n p q) s (okResp (.bit b)) ∧
      (b = true ↔ (n.toNat : ℤ) * ((q.toNat : ℤ) - p.toNat) ≤ (m.toNat : ℤ) * q.toNat ∧
        (m.toNat : ℤ) * q.toNat ≤ (n.toNat : ℤ) * ((q.toNat : ℤ) + p.toNat)) ∧
      (p = 0#16 → (b = true ↔ m = n)) ∧
      (n = 0#16 → (b = true ↔ m = 0#16)) ∧
      (q.toNat < p.toNat → (b = true ↔ (m.toNat : ℤ) * q.toNat ≤ (n.toNat : ℤ) * ((q.toNat : ℤ) + p.toNat))))

/-- R95, R110, R125, R140: the codecs' windows as intervals, and the RC6 windows as Tol(v, kT, 1, 2k). -/
def Obligations.CodecWindowsAreTheseIntervals : Prop :=
  ∀ v : Pulse,
    (necWindow 9000 v = true ↔ Within v 6750 11250) ∧ (necWindow 4500 v = true ↔ Within v 3375 5625) ∧
    (necWindow 562 v = true ↔ Within v 422 702) ∧ (necWindow 2250 v = true ↔ Within v 1688 2812) ∧
    (tol v.toNat 2664 1 12 = true ↔ Within v 2442 2886) ∧ (tol v.toNat 888 1 4 = true ↔ Within v 666 1110) ∧
    (inWin v 2442 2886 = true ↔ Within v 2442 2886) ∧ (inWin v 666 1110 = true ↔ Within v 666 1110)

/-! ## NEC -/

/-- R112, R113, R114: with a header in its windows and 67 pulses or more, NEC.DEC completes, and bit k of the payload is the
pulse at 3 + 2k against 1081; nothing else is looked at. -/
def Obligations.NecDecodeReadsThirtyTwoBits : Prop :=
  ∀ (i : Instr) (x : List Pulse) (a b c : Pulse) (rest : List Pulse) (s : State),
    Reads .necDecPulses .necDecHex i x → x = a :: b :: c :: rest → Within a 6750 11250 → Within b 3375 5625 →
    Within c 422 702 → 67 ≤ x.length →
    ∃ p : NecPayload, Answers i s (okResp (.payload p)) ∧
      ∀ k < 32, payloadBit p k = decide (1081 < (x[3 + 2 * k]?.getD 0#16).toNat)

/-- R180, R110, R111: the outcome of NEC.DEC by the stream's length and first three pulses. -/
def Obligations.NecDecodeErrorPriority : Prop :=
  ∀ (i : Instr) (x : List Pulse) (s : State), Reads .necDecPulses .necDecHex i x →
    (x = [] → Answers i s (errResp 5#4 0#3 0#32)) ∧
    (∀ a rest, x = a :: rest → ¬ Within a 6750 11250 → Answers i s (errResp 2#4 0#3 (a.setWidth 32))) ∧
    (∀ a, x = [a] → Within a 6750 11250 → Answers i s (errResp 5#4 0#3 1#32)) ∧
    (∀ a b rest, x = a :: b :: rest → Within a 6750 11250 → ¬ Within b 3375 5625 →
      Answers i s (errResp 2#4 1#3 (b.setWidth 32))) ∧
    (∀ a b, x = [a, b] → Within a 6750 11250 → Within b 3375 5625 → Answers i s (errResp 5#4 0#3 2#32)) ∧
    (∀ a b c rest, x = a :: b :: c :: rest → Within a 6750 11250 → Within b 3375 5625 → ¬ Within c 422 702 →
      Answers i s (errResp 2#4 2#3 (c.setWidth 32))) ∧
    (∀ a b c rest, x = a :: b :: c :: rest → Within a 6750 11250 → Within b 3375 5625 → Within c 422 702 →
      (x.length < 67 → Answers i s (errResp 5#4 0#3 (BitVec.ofNat 32 x.length))) ∧
      (67 ≤ x.length → ∃ p, Answers i s (okResp (.payload p))))

/-- R116, R148, R90: a string that does not parse gives FORMAT_ERROR from both decoders; one that parses gives what the
PULSES form gives on the pulses. -/
def Obligations.DecodersParseHexFirst : Prop :=
  ∀ (h : List Char) (s : State),
    (h.length % 4 ≠ 0 ∨ (∃ c ∈ h, ¬ IsHexDigit c) →
      Answers (.necDecHex h) s (errResp 1#4 0#3 0#32) ∧ Answers (.rc6DecHex h) s (errResp 1#4 0#3 0#32)) ∧
    (h.length % 4 = 0 → (∀ c ∈ h, IsHexDigit c) → ∃ x : List Pulse,
      Answers (.txParseHex h) s (okResp (.pulses x)) ∧
      exec (.necDecHex h) s = exec (.necDecPulses x) s ∧ exec (.rc6DecHex h) s = exec (.rc6DecPulses x) s)

/-- R72, R121, R122: NEC.ENC BYTES normalises its 2, 3 or 4 bytes and serializes the frame of R69; any other length gives
LENGTH_ERROR with the length. -/
def Obligations.NecEncodeBuildsFrame : Prop :=
  (∀ (x : List Byte) (p : NecPayload) (s : State), Normalized x p →
    ∃ F : List Pulse, Answers (.necEncBytes x) s (okResp (.hex (txFormat F))) ∧ F.length = 67 ∧
      (txFormat F).length = 268 ∧
      F[0]? = some 9000#16 ∧ F[1]? = some 4500#16 ∧ F[66]? = some 562#16 ∧
      ∀ k < 32, F[2 + 2 * k]? = some 562#16 ∧
        F[3 + 2 * k]? = some (if payloadBit p k then 1600#16 else 562#16)) ∧
  (∀ (x : List Byte) (s : State), x.length ≠ 2 → x.length ≠ 3 → x.length ≠ 4 →
    Answers (.necEncBytes x) s (errResp 3#4 0#3 (BitVec.ofNat 32 x.length)))

/-- R122, R64, D10: NEC.ENC INT is a TYPE_ERROR when NEC_INT_TO_BYTES is not given; when it is, the instruction completes as
NEC.ENC BYTES on the bytes the parameter gives, or with the error status it gives. It holds for every parameter (log 4). -/
def Obligations.NecEncodeIntFollowsParameter : Prop :=
  ∀ (v : Field) (s : State),
    (s.params.necIntGiven = false → Answers (.necEncInt v) s (errResp 4#4 0#3 0#32)) ∧
    (s.params.necIntGiven = true → ∃ y : Response, Answers (.necEncInt v) s y ∧
      (∀ x, Config.necIntToBytes v = .ok x → Answers (.necEncBytes x) s y) ∧
      (∀ e, Config.necIntToBytes v = .error e → y = errResponse e))

/-- R125, R126: NEC.REP answers 1 for exactly three pulses in their windows, 0 for any other stream and for a string that
does not parse; it never raises. -/
def Obligations.NecRepeatClassifies : Prop :=
  ∀ (x : List Pulse) (h : List Char) (s : State),
    (encode (.necRepPulses x)).header = 0x0112#16 ∧ (encode (.necRepHex h)).header = 0x0012#16 ∧
    (∃ b, Answers (.necRepPulses x) s (okResp (.bit b)) ∧
      (b = true ↔ ∃ u v w, x = [u, v, w] ∧ Within u 6750 11250 ∧ Within v 1688 2812 ∧ Within w 422 702)) ∧
    (h.length % 4 ≠ 0 ∨ (∃ c ∈ h, ¬ IsHexDigit c) → Answers (.necRepHex h) s (okResp (.bit false))) ∧
    (h.length % 4 = 0 → (∀ c ∈ h, IsHexDigit c) → ∃ y : List Pulse,
      Answers (.txParseHex h) s (okResp (.pulses y)) ∧
      ∃ b, Answers (.necRepHex h) s (okResp (.bit b)) ∧ Answers (.necRepPulses y) s (okResp (.bit b)))

/-- R127: the NEC round trip, for the three input forms. -/
def Obligations.NecRoundTrip : Prop :=
  ∀ (x : List Byte) (p : NecPayload) (s : State), Normalized x p →
    ∃ h : List Char, Answers (.necEncBytes x) s (okResp (.hex h)) ∧ Answers (.necDecHex h) s (okResp (.payload p))

/-- R128: NEC frames are never repeat codes, and no stream of three pulses decodes. -/
def Obligations.NecFramesAndRepeatCodesAreDisjoint : Prop :=
  (∀ (p : NecPayload) (s : State), Answers (.necRepPulses (necFrame p)) s (okResp (.bit false))) ∧
  (∀ (a b c : Pulse) (s : State),
    (Within a 6750 11250 ∧ Within b 3375 5625 ∧ Within c 422 702 →
      Answers (.necDecPulses [a, b, c]) s (errResp 5#4 0#3 3#32)) ∧
    (¬ (Within a 6750 11250 ∧ Within b 3375 5625 ∧ Within c 422 702) →
      ∃ (f : BitVec 3) (v : Pulse), v ∈ [a, b, c] ∧
        Answers (.necDecPulses [a, b, c]) s (errResp 2#4 f (v.setWidth 32))))

/-! ## RC6 -/

/-- R141 to R147: with a leader in its windows, RC6.DEC walks 21 positions from 2; when the last is inside the padded stream
it completes and every bit of the record is the parity of its position, else RANGE_ERROR with the padded length. -/
def Obligations.Rc6DecodeFollowsWalk : Prop :=
  ∀ (i : Instr) (x : List Pulse) (P : Nat → Nat) (a b : Pulse) (rest : List Pulse) (s : State),
    Reads .rc6DecPulses .rc6DecHex i x → padded x = a :: b :: rest → Within a 2442 2886 → Within b 666 1110 →
    P 0 = 2 → (∀ n < 20, P (n + 1) = nextPos (padded x) (P n)) →
    (P 20 < (padded x).length → ∃ r : Rc6Record, Answers i s (okResp (.record r)) ∧
      (∀ k < 8, r.info.getLsbD k = decide (P (20 - k) % 2 = 1)) ∧
      (∀ k < 8, r.control.getLsbD k = decide (P (12 - k) % 2 = 1)) ∧
      r.toggle.getLsbD 0 = decide (P 4 % 2 = 1) ∧
      (∀ k < 3, r.mode.getLsbD k = decide (P (3 - k) % 2 = 1))) ∧
    ((padded x).length ≤ P 20 → Answers i s (errResp 5#4 0#3 (BitVec.ofNat 32 (padded x).length)))

/-- R181, R142: the outcome of RC6.DEC by the stream's length and leader. -/
def Obligations.Rc6DecodeErrorPriority : Prop :=
  ∀ (i : Instr) (x : List Pulse) (s : State), Reads .rc6DecPulses .rc6DecHex i x →
    (x = [] → Answers i s (errResp 5#4 0#3 0#32)) ∧
    (∀ a rest, x = a :: rest → ¬ Within a 2442 2886 → Answers i s (errResp 2#4 3#3 (a.setWidth 32))) ∧
    (∀ a, x = [a] → Within a 2442 2886 → Answers i s (errResp 2#4 4#3 65535#32)) ∧
    (∀ a b rest, x = a :: b :: rest → Within a 2442 2886 → ¬ Within b 666 1110 →
      Answers i s (errResp 2#4 4#3 (b.setWidth 32))) ∧
    (∀ a b rest, x = a :: b :: rest → Within a 2442 2886 → Within b 666 1110 →
      (x.length = 2 → Answers i s (errResp 5#4 0#3 2#32)) ∧
      (3 ≤ x.length → x.length ≤ 22 → Answers i s (errResp 5#4 0#3 (BitVec.ofNat 32 (padded x).length))) ∧
      (23 ≤ x.length → x.length ≤ 42 →
        (∃ r, Answers i s (okResp (.record r))) ∨ Answers i s (errResp 5#4 0#3 (BitVec.ofNat 32 (padded x).length))) ∧
      (43 ≤ x.length → ∃ r, Answers i s (okResp (.record r))))

/-- R149: the last position of the walk lies between 22 and 42, and the stream decodes exactly when it is inside the padded
stream; so 23 pulses are needed and 43 always do. -/
def Obligations.Rc6WalkLengthNeeded : Prop :=
  ∀ (x : List Pulse) (P : Nat → Nat) (a b : Pulse) (rest : List Pulse) (s : State),
    padded x = a :: b :: rest → Within a 2442 2886 → Within b 666 1110 →
    P 0 = 2 → (∀ n < 20, P (n + 1) = nextPos (padded x) (P n)) →
    22 ≤ P 20 ∧ P 20 ≤ 42 ∧
    ((∃ r, Answers (.rc6DecPulses x) s (okResp (.record r))) ↔ P 20 < (padded x).length) ∧
    ((∃ r, Answers (.rc6DecPulses x) s (okResp (.record r))) → 23 ≤ (padded x).length ∧ 23 ≤ x.length) ∧
    (43 ≤ x.length → ∃ r, Answers (.rc6DecPulses x) s (okResp (.record r)))

/-- R75 (with R41, R46, R74, R76, R150 to R154): every form of RC6.ENC completes, and its frame is the only stream of whole
T units that carries the signal of the leader and the 21 cells, merged where neighbours agree, ending on a mark: the last
clause says that no other such stream carries it. -/
def Obligations.Rc6EncodeSendsTheSignal : Prop :=
  ∀ (i : Instr) (f : Rc6Fields) (s : State), FieldsOf i f →
    ∃ F : List Pulse, Answers i s (okResp (.hex (txFormat F))) ∧ F.length % 2 = 1 ∧
      (∀ v ∈ F, 0 < v.toNat ∧ v.toNat % 444 = 0) ∧ streamSignal F = frameSignal f ∧
      ∀ G : List Pulse, G.length % 2 = 1 → (∀ v ∈ G, 0 < v.toNat ∧ v.toNat % 444 = 0) →
        streamSignal G = frameSignal f → G = F

/-- R76, R150: FIELDS of length 0 or more than 4 gives TYPE_ERROR; absent fields are 0; INT is info only; the high bits of
every field are ignored. -/
def Obligations.Rc6EncodeOperandForms : Prop :=
  (∀ (l : List Field) (s : State), (l.length = 0 ∨ 4 < l.length) → Answers (.rc6EncFields l) s (errResp 4#4 0#3 0#32)) ∧
  (∀ (a b c d : Field) (s : State),
    exec (.rc6EncFields [a]) s = exec (.rc6EncFields [a, 0#32, 0#32, 0#32]) s ∧
    exec (.rc6EncFields [a, b]) s = exec (.rc6EncFields [a, b, 0#32, 0#32]) s ∧
    exec (.rc6EncFields [a, b, c]) s = exec (.rc6EncFields [a, b, c, 0#32]) s ∧
    exec (.rc6EncInt a) s = exec (.rc6EncFields [a, 0#32, 0#32, 0#32]) s ∧
    (∃ h, Answers (.rc6EncFields [a, b, c, d]) s (okResp (.hex h)) ∧
      Answers (.rc6EncFields [a &&& 0xFF#32, b &&& 0xFF#32, c &&& 1#32, d &&& 7#32]) s (okResp (.hex h))))

/-- R156: the length of an RC6 frame, by the number of neighbouring bits of DATA that differ. -/
def Obligations.Rc6FrameLength : Prop :=
  ∀ f : Rc6Fields,
    let data := rc6Word f
    let D := (List.range 20).countP fun k => data.getLsbD (k + 1) != data.getLsbD k
    (data.getLsbD 0 = false → (rc6Frame data).length = 44 - D) ∧
    (data.getLsbD 0 = true → (rc6Frame data).length = 43 - D) ∧
    (rc6Frame data).length % 2 = 1 ∧ 23 ≤ (rc6Frame data).length ∧ (rc6Frame data).length ≤ 43

/-- R153, R155: after the leader of 2664 and 888 a frame holds only the values 444, 888 and 1332. -/
def Obligations.Rc6FramePulseValues : Prop :=
  ∀ f : Rc6Fields, ∃ rest : List Pulse, rc6Frame (rc6Word f) = 2664#16 :: 888#16 :: rest ∧
    ∀ v ∈ rest, v = 444#16 ∨ v = 888#16 ∨ v = 1332#16

/-- R157: the RC6 round trip holds exactly for the field sets of the table. -/
def Obligations.Rc6RoundTripExactly : Prop :=
  ∀ (r : Rc6Record) (s : State), ∃ h : List Char,
    Answers (.rc6EncFields (recordFields r)) s (okResp (.hex h)) ∧
    (Answers (.rc6DecHex h) s (okResp (.record r)) ↔ roundTrips r)

/-- R158: RC6 frames and NEC frames do not decode as each other. -/
def Obligations.FramesDoNotCrossDecode : Prop :=
  ∀ (f : Rc6Fields) (p : NecPayload) (s : State),
    Answers (.necDecPulses (rc6Frame (rc6Word f))) s (errResp 2#4 0#3 2664#32) ∧
    Answers (.rc6DecPulses (necFrame p)) s (errResp 2#4 3#3 9000#32) ∧
    Answers (.necRepPulses (rc6Frame (rc6Word f))) s (okResp (.bit false))

/-! ## The host -/

/-- R187: for every line at most one of NEC decode, NEC repeat and RC6 decode succeeds, and the host's dispatch gives it. The
clauses about `classify` rest on the model's reading of the host (log 16): all three requests asked of an idle CORE. -/
def Obligations.AtMostOneCodecClaimsALine : Prop :=
  ∀ (p : Params) (h : List Char), h.length ≤ 4 * p.maxPulses →
    ∃ a b c : Response,
      ask p (encode (.necDecHex h)) = some a ∧ ask p (encode (.necRepHex h)) = some b ∧
      ask p (encode (.rc6DecHex h)) = some c ∧
      ¬ (a.status = 0#4 ∧ b.result = some (.bit true)) ∧ ¬ (a.status = 0#4 ∧ c.status = 0#4) ∧
      ¬ (b.result = some (.bit true) ∧ c.status = 0#4) ∧
      (∀ x, classify p h = some (.nec x) ↔ a.result = some (.payload x)) ∧
      (classify p h = some .necRepeat ↔ b.result = some (.bit true)) ∧
      (∀ x, classify p h = some (.rc6 x) ↔ c.result = some (.record x)) ∧
      (classify p h = some .nothing ↔ a.status ≠ 0#4 ∧ b.result = some (.bit false) ∧ c.status ≠ 0#4)

/-! ## What every step keeps -/

/-- R52, R58 as a step: a step from admitted requests leaves admitted requests, and the responses pending together with the
responses the requests in progress get alone stay the same, in some order. It holds for every order of answers (log 2). -/
def Obligations.StepKeepsTheResponsesToCome : Prop :=
  ∀ s t : State, s.admitted → step s = .next t →
    t.admitted ∧
    (t.responses.map some ++ t.inFlight.map (ask t.params)).Perm (s.responses.map some ++ s.inFlight.map (ask s.params))
end

