-- ==== Sys2Proof/Laws/Decode.lean ====
section
/-! SUPPORT. The fields of the header word, and the tables of operations and operands. -/

namespace Sys2Proof

/-- The fields of the word H are the parts it was made of. -/
theorem opField_append (rsv : BitVec 5) (tag : BitVec 3) (op : BitVec 8) : opField (rsv ++ tag ++ op) = op := by
  show BitVec.extractLsb' (n := 5 + 3 + 8) 0 8 (rsv ++ tag ++ op) = op
  apply BitVec.eq_of_getLsbD_eq
  intro i hi
  rw [BitVec.getLsbD_extractLsb', Nat.zero_add, BitVec.getLsbD_append]
  simp [hi]

theorem tagField_append (rsv : BitVec 5) (tag : BitVec 3) (op : BitVec 8) : tagField (rsv ++ tag ++ op) = tag := by
  show BitVec.extractLsb' (n := 5 + 3 + 8) 8 3 (rsv ++ tag ++ op) = tag
  apply BitVec.eq_of_getLsbD_eq
  intro i hi
  rw [BitVec.getLsbD_extractLsb', BitVec.getLsbD_append, BitVec.getLsbD_append]
  simp [hi]

theorem rsvField_append (rsv : BitVec 5) (tag : BitVec 3) (op : BitVec 8) : rsvField (rsv ++ tag ++ op) = rsv := by
  show BitVec.extractLsb' (n := 5 + 3 + 8) 11 5 (rsv ++ tag ++ op) = rsv
  apply BitVec.eq_of_getLsbD_eq
  intro i hi
  rw [BitVec.getLsbD_extractLsb', BitVec.getLsbD_append, BitVec.getLsbD_append]
  simp [hi, show ¬ 11 + i < 8 by omega, show ¬ 11 + i - 8 < 3 by omega, show 11 + i - 8 - 3 = i by omega]

/-- The decoder on a request, in the request's own fields. -/
theorem decode_eq (r : Request) :
    decode r =
      if r.rsv ≠ 0#5 then .error (.reservedBits r.rsv)
      else match Op.ofCode r.op with
        | none => .error (.unassignedOp r.op)
        | some o => match o.withOperand r.operand with
          | none => .error (.illegalTag r.op r.operand.tag)
          | some i => .ok i := by
  unfold decode decodeWord Request.header
  rw [opField_append, tagField_append, rsvField_append]
  all_goals rfl

/-- The instruction carries the request's own operand (R62). -/
theorem decode_operand {r : Request} {i : Instr} (h : decode r = .ok i) : r.operand = i.operand := by
  rw [decode_eq] at h
  split at h
  · simp at h
  · split at h
    · simp at h
    · rename_i o _
      split at h
      · simp at h
      · rename_i j hj
        simp only [Except.ok.injEq] at h
        subst h
        cases o <;> cases hx : r.operand <;> simp [hx, Op.withOperand] at hj <;> subst hj <;> rfl

end Sys2Proof
end

