-- ==== Sys2Proof/Laws/State.lean ====
section
/-! SUPPORT. One lemma per field per update of State, so that no proof unfolds a record update. -/

namespace Sys2Proof.Machine

open Sys2Proof

@[simp] theorem State.deliver_params (s : State) (x : Response) : (s.deliver x).params = s.params := rfl
@[simp] theorem State.deliver_inFlight (s : State) (x : Response) : (s.deliver x).inFlight = s.inFlight := rfl
@[simp] theorem State.deliver_responses (s : State) (x : Response) :
    (s.deliver x).responses = s.responses ++ [x] := rfl
@[simp] theorem State.deliver_turn (s : State) (x : Response) : (s.deliver x).turn = s.turn := rfl

@[simp] theorem State.dequeue_params (s : State) (k : Nat) : (s.dequeue k).params = s.params := rfl
@[simp] theorem State.dequeue_inFlight (s : State) (k : Nat) :
    (s.dequeue k).inFlight = s.inFlight.eraseIdx k := rfl
@[simp] theorem State.dequeue_responses (s : State) (k : Nat) : (s.dequeue k).responses = s.responses := rfl
@[simp] theorem State.dequeue_turn (s : State) (k : Nat) : (s.dequeue k).turn = s.turn + 1 := rfl

@[simp] theorem State.issue_params (s : State) (r : Request) : (s.issue r).params = s.params := rfl
@[simp] theorem State.issue_inFlight (s : State) (r : Request) : (s.issue r).inFlight = s.inFlight ++ [r] := rfl
@[simp] theorem State.issue_responses (s : State) (r : Request) : (s.issue r).responses = s.responses := rfl
@[simp] theorem State.issue_turn (s : State) (r : Request) : (s.issue r).turn = s.turn := rfl

@[simp] theorem State.resetEvent_params (s : State) : s.resetEvent.params = s.params := rfl
@[simp] theorem State.resetEvent_inFlight (s : State) : s.resetEvent.inFlight = [] := rfl
@[simp] theorem State.resetEvent_responses (s : State) : s.resetEvent.responses = [] := rfl
@[simp] theorem State.resetEvent_turn (s : State) : s.resetEvent.turn = s.turn := rfl

@[simp] theorem State.alone_params (p : Params) (r : Request) : (State.alone p r).params = p := rfl
@[simp] theorem State.alone_inFlight (p : Params) (r : Request) : (State.alone p r).inFlight = [r] := rfl
@[simp] theorem State.alone_responses (p : Params) (r : Request) : (State.alone p r).responses = [] := rfl
@[simp] theorem State.alone_turn (p : Params) (r : Request) : (State.alone p r).turn = 0 := rfl

@[simp] theorem State.reset_params : State.reset.params = Config.params := rfl
@[simp] theorem State.reset_inFlight : State.reset.inFlight = [] := rfl
@[simp] theorem State.reset_responses : State.reset.responses = [] := rfl
@[simp] theorem State.reset_turn : State.reset.turn = 0 := rfl

/-- A state is its four fields. -/
theorem State.eq_of_fields {s t : State} (hp : s.params = t.params) (hi : s.inFlight = t.inFlight)
    (hr : s.responses = t.responses) (ht : s.turn = t.turn) : s = t := by
  cases s; cases t; simp_all

end Sys2Proof.Machine
end

