-- ==== Sys2Proof/Laws/Ops.lean ====
section
/-! SUPPORT. What each shared operation can do, said once. -/

namespace Sys2Proof.Machine

open Sys2Proof

theorem complete_eq (x : Except Err Result) (s : State) : complete x s = .next (s.deliver (responseOf x)) := rfl

theorem raise_eq (e : Err) (s : State) : raise e s = .next (s.deliver (errResponse e)) := rfl

@[simp] theorem responseOf_ok (r : Result) : responseOf (.ok r) = okResponse r := rfl
@[simp] theorem responseOf_error (e : Err) : responseOf (.error e) = errResponse e := rfl

@[simp] theorem okResponse_result (r : Result) : (okResponse r).result = some r := rfl
@[simp] theorem okResponse_status (r : Result) : (okResponse r).status = 0#4 := rfl
@[simp] theorem errResponse_result (e : Err) : (errResponse e).result = none := rfl
@[simp] theorem errResponse_status (e : Err) : (errResponse e).status = errStatus e := rfl

@[simp] theorem errStatus_ne_zero (e : Err) : errStatus e ≠ 0#4 := by
  cases e <;> simp [errStatus]

/-- A read inside the stream gives the element, and a read past it raises RangeError with the stream's length. -/
theorem pulseAt_eq (s : List Pulse) (i : Nat) :
    pulseAt s i = if h : i < s.length then .ok s[i] else .error (.range s.length) := by
  unfold pulseAt
  split <;> rename_i hv
  · obtain ⟨h, rfl⟩ := List.getElem?_eq_some_iff.mp hv
    simp [h]
  · have : ¬ i < s.length := by simpa using hv
    simp [this]

theorem pulseAt_of_lt {s : List Pulse} {i : Nat} (h : i < s.length) : pulseAt s i = .ok s[i] := by
  simp [pulseAt_eq, h]

theorem pulseAt_of_ge {s : List Pulse} {i : Nat} (h : s.length ≤ i) : pulseAt s i = .error (.range s.length) := by
  simp [pulseAt_eq, Nat.not_lt.mpr h]

/-- A header check passes, or names the pulse it read, or finds no pulse. -/
theorem checkPulse_eq (s : List Pulse) (i : Nat) (w : Pulse → Bool) (f : TimingField) :
    checkPulse s i w f =
      if h : i < s.length then (if w s[i] then .ok () else .error (.timing f s[i])) else .error (.range s.length) := by
  unfold checkPulse
  rw [pulseAt_eq]
  by_cases h : i < s.length <;> simp [h]

/-- The request that answers next is one of those in progress. -/
theorem finishIndex_lt {turn n : Nat} (h : 0 < n) : finishIndex turn n < n := by
  unfold finishIndex
  split
  · exact h
  · exact Nat.mod_lt _ h

@[simp] theorem finishIndex_one (turn : Nat) : finishIndex turn 1 = 0 := rfl

/-- The exact window as a window on natural numbers, when the tolerance is no more than the whole. -/
theorem tol_iff {m n p q : Nat} (h : p ≤ q) : tol m n p q = true ↔ n * (q - p) ≤ m * q ∧ m * q ≤ n * (q + p) := by
  unfold tol
  rw [Bool.and_eq_true, decide_eq_true_iff, decide_eq_true_iff]
  constructor <;> rintro ⟨h1, h2⟩ <;> refine ⟨?_, ?_⟩ <;> zify [h] at * <;> assumption

/-- The four NEC windows, as R110 and R125 write them out. -/
theorem necWindow_leadMark (v : Pulse) : necWindow necLeadMark v = true ↔ 6750 ≤ v.toNat ∧ v.toNat ≤ 11250 := by
  rw [necWindow, tol_iff (by decide)]; simp only [necLeadMark, necTolP, necTolQ]; omega
theorem necWindow_leadGap (v : Pulse) : necWindow necLeadGap v = true ↔ 3375 ≤ v.toNat ∧ v.toNat ≤ 5625 := by
  rw [necWindow, tol_iff (by decide)]; simp only [necLeadGap, necTolP, necTolQ]; omega
theorem necWindow_bitGap (v : Pulse) : necWindow necBitGap v = true ↔ 422 ≤ v.toNat ∧ v.toNat ≤ 702 := by
  rw [necWindow, tol_iff (by decide)]; simp only [necBitGap, necTolP, necTolQ]; omega
theorem necWindow_repeatGap (v : Pulse) : necWindow necRepeatGap v = true ↔ 1688 ≤ v.toNat ∧ v.toNat ≤ 2812 := by
  rw [necWindow, tol_iff (by decide)]; simp only [necRepeatGap, necTolP, necTolQ]; omega

theorem inWin_iff (v : Pulse) (lo hi : Nat) : inWin v lo hi = true ↔ lo ≤ v.toNat ∧ v.toNat ≤ hi := by
  simp [inWin]

/-- A sequence of checks fails at its first part or at the rest. -/
theorem bind_error {α β : Type} {x : Except Err α} {f : α → Except Err β} {e : Err} (h : (x >>= f) = .error e) :
    x = .error e ∨ ∃ a, x = .ok a ∧ f a = .error e := by
  cases x with
  | error e' => exact .inl (by simpa [bind, Except.bind] using h)
  | ok a => exact .inr ⟨a, rfl, h⟩

/-- The errors a decoder can raise: RangeError and TimingError. -/
def isDecodeErr (e : Err) : Prop := (∃ n, e = .range n) ∨ ∃ f v, e = .timing f v

theorem isDecodeErr_status {e : Err} (h : isDecodeErr e) : errStatus e = 2#4 ∨ errStatus e = 5#4 := by
  rcases h with ⟨n, rfl⟩ | ⟨f, v, rfl⟩ <;> simp [errStatus]

theorem pulseAt_error {s : List Pulse} {i : Nat} {e : Err} (h : pulseAt s i = .error e) : isDecodeErr e := by
  rw [pulseAt_eq] at h
  split at h <;> simp at h
  exact .inl ⟨_, h.symm⟩

theorem checkPulse_error {s : List Pulse} {i : Nat} {w : Pulse → Bool} {f : TimingField} {e : Err}
    (h : checkPulse s i w f = .error e) : isDecodeErr e := by
  rw [checkPulse_eq] at h
  split at h
  · split at h <;> simp at h
    exact .inr ⟨_, _, h.symm⟩
  · simp at h
    exact .inl ⟨_, h.symm⟩

end Sys2Proof.Machine
end

