-- ==== Sys2Proof/Laws/Operands.lean ====
section
/-! SUPPORT. What the operand forms do: size limits, hex digits, groups, strings. -/

namespace Sys2Proof.Machine

open Sys2Proof

/-- The count along the sequence is the comparison of its length with the limit. -/
theorem longerThan_iff {α : Type} (l : List α) (n : Nat) : longerThan l n = true ↔ n < l.length := by
  induction l generalizing n with
  | nil => simp [longerThan]
  | cons a l ih => cases n <;> simp [longerThan, ih]

theorem longerThan_eq {α : Type} (l : List α) (n : Nat) : longerThan l n = !decide (l.length ≤ n) := by
  rw [Bool.eq_iff_iff, longerThan_iff]; simp

/-- The size check on the operand is the well-formedness check on the instruction (R58). -/
theorem oversize_operand (p : Params) (i : Instr) : oversize p i.operand = !WellFormed p i := by
  cases i <;> simp [oversize, Instr.operand, WellFormed, longerThan_eq]

/-- Every digit the transcoder writes reads back as its nibble (R92). -/
theorem hexVal_hexDigit : ∀ n : BitVec 4, hexVal (hexDigit n) = some n.toNat := by decide

/-- Every digit the transcoder writes is a lowercase one (R26). -/
theorem hexDigit_lower : ∀ n : BitVec 4, (hexDigit n).toLower = hexDigit n := by decide

theorem hex2_length (b : Byte) : (hex2 b).length = 2 := rfl

/-- A group read back is the pulse that was written (R43, R90, R91). -/
theorem groupPulse_of_pulse (v : Pulse) :
    groupPulse ((v.extractLsb' 0 8).extractLsb' 4 4).toNat ((v.extractLsb' 0 8).extractLsb' 0 4).toNat
      ((v.extractLsb' 8 8).extractLsb' 4 4).toNat ((v.extractLsb' 8 8).extractLsb' 0 4).toNat = v := by
  have hlo : (v.toNat / 16 % 16) * 16 + v.toNat % 16 < 2 ^ 8 := by omega
  apply BitVec.eq_of_toNat_eq
  have h8 : 2 ^ 8 = 256 := rfl
  simp only [groupPulse, BitVec.extractLsb'_toNat, Nat.shiftRight_eq_div_pow, BitVec.toNat_ofNat]
  have hv := v.isLt
  rw [show v.toNat / 2 ^ 0 % 2 ^ 8 / 2 ^ 4 % 2 ^ 4 = v.toNat / 16 % 16 by omega,
    show v.toNat / 2 ^ 0 % 2 ^ 8 / 2 ^ 0 % 2 ^ 4 = v.toNat % 16 by omega,
    ← Nat.shiftLeft_add_eq_or_of_lt hlo, Nat.shiftLeft_eq]
  omega

@[simp] theorem txFormat_nil : txFormat [] = [] := rfl

theorem txFormat_cons (v : Pulse) (s : List Pulse) :
    txFormat (v :: s) = hexDigit ((v.extractLsb' 0 8).extractLsb' 4 4) :: hexDigit ((v.extractLsb' 0 8).extractLsb' 0 4)
      :: hexDigit ((v.extractLsb' 8 8).extractLsb' 4 4) :: hexDigit ((v.extractLsb' 8 8).extractLsb' 0 4)
      :: txFormat s := rfl

/-- Four characters per pulse (R91). -/
theorem txFormat_length (s : List Pulse) : (txFormat s).length = 4 * s.length := by
  induction s with
  | nil => rfl
  | cons v s ih => rw [txFormat_cons]; simp only [List.length_cons, ih]; omega

/-- Reading the groups written gives the pulses written. -/
theorem parseGroups_txFormat (s : List Pulse) : parseGroups (txFormat s) = .ok s := by
  induction s with
  | nil => rfl
  | cons v s ih =>
    rw [txFormat_cons]
    simp only [parseGroups, hexVal_hexDigit, ih, groupPulse_of_pulse]

/-- What reading groups can answer: pulses, or FormatError. -/
theorem parseGroups_error {h : List Char} {e : Err} (he : parseGroups h = .error e) : e = .format := by
  fun_induction parseGroups h <;> simp_all

/-- FormatError is the only error of TX.PARSE (R90). -/
theorem txParse_error {h : List Char} {e : Err} (he : txParse h = .error e) : e = .format := by
  unfold txParse at he
  split at he
  · simpa using he.symm
  · exact parseGroups_error he

/-- LengthError with the length is the only error of the normalisation (R72). -/
theorem necNormalize_error {x : List Byte} {e : Err} (h : necNormalize x = .error e) : e = .length x.length := by
  unfold necNormalize at h
  split at h <;> simp at h
  exact h.symm

/-- TypeError is the only error of a FIELDS operand (R76). -/
theorem rc6FieldsOf_error {x : List Field} {e : Err} (h : rc6FieldsOf x = .error e) : e = .type := by
  unfold rc6FieldsOf at h
  split at h <;> simp at h
  exact h.symm

end Sys2Proof.Machine
end

