-- ==== Sys2Proof/Laws/Nec.lean ====
section
/-! SUPPORT. The NEC codec's parts: the frame's shape, and the errors of the decoder. -/

namespace Sys2Proof.Machine

open Sys2Proof

/-- Two pulses per cell. -/
theorem flatMap_pair_length {α : Type} (a b : Nat → α) (n : Nat) :
    ((List.range n).flatMap fun k => [a k, b k]).length = 2 * n := by
  induction n with
  | zero => rfl
  | succ n ih => rw [List.range_succ, List.flatMap_append]; simp [ih]; omega

/-- Where the two pulses of cell `k` lie. -/
theorem flatMap_pair_getElem? {α : Type} (a b : Nat → α) (n k : Nat) (hk : k < n) :
    ((List.range n).flatMap fun k => [a k, b k])[2 * k]? = some (a k) ∧
      ((List.range n).flatMap fun k => [a k, b k])[2 * k + 1]? = some (b k) := by
  induction n with
  | zero => omega
  | succ n ih =>
    rw [List.range_succ, List.flatMap_append]
    have hl := flatMap_pair_length a b n
    rcases Nat.lt_succ_iff_lt_or_eq.1 hk with h | rfl
    · obtain ⟨h1, h2⟩ := ih h
      rw [List.getElem?_append_left (by omega), List.getElem?_append_left (by omega)]
      exact ⟨h1, h2⟩
    · rw [List.getElem?_append_right (by omega), List.getElem?_append_right (by omega), hl]
      simp

/-- The frame has 67 pulses (R69). -/
theorem necFrame_length (p : NecPayload) : (necFrame p).length = 67 := by
  simp only [necFrame, necCell, List.length_append, List.length_cons, List.length_nil, flatMap_pair_length]

/-- The two pulses of data bit `k` (R69). -/
theorem necFrame_cell (p : NecPayload) (k : Nat) (hk : k < 32) :
    (necFrame p)[2 + 2 * k]? = some (BitVec.ofNat 16 necBitGap) ∧
      (necFrame p)[3 + 2 * k]? = some (BitVec.ofNat 16 (if (necWord p).getLsbD k then necOne else necZero)) := by
  have h := flatMap_pair_getElem? (fun _ => BitVec.ofNat 16 necBitGap)
    (fun k => BitVec.ofNat 16 (if (necWord p).getLsbD k then necOne else necZero)) 32 k hk
  have hl := flatMap_pair_length (fun _ => BitVec.ofNat 16 necBitGap)
    (fun k => BitVec.ofNat 16 (if (necWord p).getLsbD k then necOne else necZero)) 32
  unfold necFrame necCell
  rw [show 2 + 2 * k = 2 * k + 1 + 1 by omega, show 3 + 2 * k = 2 * k + 1 + 1 + 1 by omega]
  simp only [List.cons_append, List.nil_append, List.getElem?_cons_succ]
  rw [List.getElem?_append_left (by omega), List.getElem?_append_left (by omega)]
  exact h

theorem necAccumulate_error {s : List Pulse} {n k : Nat} {acc : BitVec 32} {e : Err}
    (h : necAccumulate s n k acc = .error e) : isDecodeErr e := by
  induction n generalizing k acc with
  | zero => simp [necAccumulate] at h
  | succ n ih =>
    rcases bind_error h with h | ⟨v, _, h⟩
    · exact pulseAt_error h
    · exact ih h

/-- NEC.DEC raises RangeError and TimingError only (R115). -/
theorem necDecode_error {x : List Pulse} {e : Err} (h : necDecode x = .error e) : isDecodeErr e := by
  rcases bind_error h with h | ⟨_, _, h⟩
  · rcases bind_error h with h | ⟨_, _, h⟩
    · exact checkPulse_error h
    · rcases bind_error h with h | ⟨_, _, h⟩ <;> exact checkPulse_error h
  · split at h
    · exact .inl ⟨_, by simpa using h.symm⟩
    · rcases bind_error h with h | ⟨_, _, h⟩
      · exact necAccumulate_error h
      · simp at h

end Sys2Proof.Machine
end

