-- ==== Sys2Proof/Laws/PerInstr.lean ====
section
/-! SUPPORT. Facts of every instruction as syntax, one lemma per constructor. -/

/-- The table's header word of an instruction names, in its bits, the TAG of the operand the instruction carries, and no
reserved bit (R61, R62, R65). -/
def Sys2Proof.Laws.HeaderTag.Statement (i : Sys2Proof.Instr) : Prop :=
  Sys2Proof.tagField (Sys2Proof.encodeHeader i) = i.operand.tag ∧ Sys2Proof.rsvField (Sys2Proof.encodeHeader i) = 0#5

namespace Sys2Proof.Laws.HeaderTag

theorem txParseHex (h : List Char) : Statement (.txParseHex h) :=
  ⟨by rw [encodeHeader, Instr.operand, Operand.tag]; decide, by rw [encodeHeader]; decide⟩
theorem txFormatPulses (s : List Pulse) : Statement (.txFormatPulses s) :=
  ⟨by rw [encodeHeader, Instr.operand, Operand.tag]; decide, by rw [encodeHeader]; decide⟩
theorem txTolTol (m n p q : BitVec 16) : Statement (.txTolTol m n p q) :=
  ⟨by rw [encodeHeader, Instr.operand, Operand.tag]; decide, by rw [encodeHeader]; decide⟩
theorem necDecHex (h : List Char) : Statement (.necDecHex h) :=
  ⟨by rw [encodeHeader, Instr.operand, Operand.tag]; decide, by rw [encodeHeader]; decide⟩
theorem necDecPulses (s : List Pulse) : Statement (.necDecPulses s) :=
  ⟨by rw [encodeHeader, Instr.operand, Operand.tag]; decide, by rw [encodeHeader]; decide⟩
theorem necEncBytes (x : List Byte) : Statement (.necEncBytes x) :=
  ⟨by rw [encodeHeader, Instr.operand, Operand.tag]; decide, by rw [encodeHeader]; decide⟩
theorem necEncInt (v : Field) : Statement (.necEncInt v) :=
  ⟨by rw [encodeHeader, Instr.operand, Operand.tag]; decide, by rw [encodeHeader]; decide⟩
theorem necRepHex (h : List Char) : Statement (.necRepHex h) :=
  ⟨by rw [encodeHeader, Instr.operand, Operand.tag]; decide, by rw [encodeHeader]; decide⟩
theorem necRepPulses (s : List Pulse) : Statement (.necRepPulses s) :=
  ⟨by rw [encodeHeader, Instr.operand, Operand.tag]; decide, by rw [encodeHeader]; decide⟩
theorem rc6DecHex (h : List Char) : Statement (.rc6DecHex h) :=
  ⟨by rw [encodeHeader, Instr.operand, Operand.tag]; decide, by rw [encodeHeader]; decide⟩
theorem rc6DecPulses (s : List Pulse) : Statement (.rc6DecPulses s) :=
  ⟨by rw [encodeHeader, Instr.operand, Operand.tag]; decide, by rw [encodeHeader]; decide⟩
theorem rc6EncFields (f : List Field) : Statement (.rc6EncFields f) :=
  ⟨by rw [encodeHeader, Instr.operand, Operand.tag]; decide, by rw [encodeHeader]; decide⟩
theorem rc6EncInt (v : Field) : Statement (.rc6EncInt v) :=
  ⟨by rw [encodeHeader, Instr.operand, Operand.tag]; decide, by rw [encodeHeader]; decide⟩

end Sys2Proof.Laws.HeaderTag
end

