-- ==== Sys2Proof/Laws/Rc6.lean ====
section
/-! SUPPORT. The RC6 codec's parts: one step of the walk, one half-cell, and the errors of the decoder. -/

namespace Sys2Proof.Machine

open Sys2Proof

/-- A step advances by 1 or by 2 (R143). -/
theorem rc6Advance_bounds (pos : Nat) (v : Pulse) : pos + 1 ≤ rc6Advance pos v ∧ rc6Advance pos v ≤ pos + 2 := by
  simp only [rc6Advance]
  by_cases h : v.toNat < if pos = rc6TogglePos then rc6ToggleLimit else rc6ShortLimit <;> simp [h]

/-- The padded copy has even length (R141). -/
theorem rc6Padded_length (s : List Pulse) : (rc6Padded s).length = s.length + s.length % 2 := by
  unfold rc6Padded
  split <;> simp <;> omega

/-- A half-cell of the last pulse's polarity widens that pulse (R153). -/
theorem rc6Append_same {out : List Pulse} {last : Pulse} {pol : Polarity} (w : Nat) (h : polarityAt out.length = pol) :
    rc6Append (out ++ [last]) pol w = out ++ [last + BitVec.ofNat 16 w] := by
  simp [rc6Append, h]

/-- A half-cell of the other polarity is a pulse of its own (R153). -/
theorem rc6Append_other {out : List Pulse} {last : Pulse} {pol : Polarity} (w : Nat) (h : polarityAt out.length ≠ pol) :
    rc6Append (out ++ [last]) pol w = out ++ [last] ++ [BitVec.ofNat 16 w] := by
  simp [rc6Append, h]

theorem rc6Walk_error {s : List Pulse} {n pos : Nat} {acc : BitVec 21} {e : Err}
    (h : rc6Walk s n pos acc = .error e) : isDecodeErr e := by
  induction n generalizing pos acc with
  | zero => simp [rc6Walk] at h
  | succ n ih =>
    rcases bind_error h with h | ⟨v, _, h⟩
    · exact pulseAt_error h
    · exact ih h

/-- RC6.DEC raises RangeError and TimingError only (R147). -/
theorem rc6Decode_error {x : List Pulse} {e : Err} (h : rc6Decode x = .error e) : isDecodeErr e := by
  rcases bind_error h with h | ⟨_, _, h⟩
  · rcases bind_error h with h | ⟨_, _, h⟩ <;> exact checkPulse_error h
  · rcases bind_error h with h | ⟨_, _, h⟩
    · exact rc6Walk_error h
    · simp at h

end Sys2Proof.Machine
end

