-- ==== Sys2Proof/Laws/Step.lean ====
section
/-! SUPPORT. What a step can do, said once. -/

namespace Sys2Proof.Machine

open Sys2Proof

/-- The response of each instruction; only NEC.ENC INT looks at a parameter. -/
def instrResponse (p : Params) : Instr → Response
  | .txParseHex h => responseOf ((txParse h).map Result.pulses)
  | .txFormatPulses x => okResponse (.hex (txFormat x))
  | .txTolTol m n a q => responseOf ((txTol m n a q).map Result.bit)
  | .necDecHex h => responseOf (do let x ← txParse h; (necDecode x).map Result.payload)
  | .necDecPulses x => responseOf ((necDecode x).map Result.payload)
  | .necEncBytes x => responseOf ((necEncode x).map Result.hex)
  | .necEncInt v =>
    if p.necIntGiven then responseOf (do let x ← Config.necIntToBytes v; (necEncode x).map Result.hex)
    else errResponse .type
  | .necRepHex h => okResponse (.bit (match txParse h with | .ok x => necIsRepeat x | .error _ => false))
  | .necRepPulses x => okResponse (.bit (necIsRepeat x))
  | .rc6DecHex h => responseOf (do let x ← txParse h; (rc6Decode x).map Result.record)
  | .rc6DecPulses x => responseOf ((rc6Decode x).map Result.record)
  | .rc6EncFields f => responseOf ((rc6FieldsOf f).map fun x => Result.hex (rc6Encode x))
  | .rc6EncInt v => okResponse (.hex (rc6Encode (rc6FieldsOfInt v)))

/-- Every instruction answers, and all it does is deliver its response. -/
theorem exec_eq (i : Instr) (s : State) : exec i s = .next (s.deliver (instrResponse s.params i)) := by
  cases i with
  | necEncInt v => simp only [exec, execNecEncInt, instrResponse]; split <;> rfl
  | necRepHex h => simp only [exec, execNecRepHex, instrResponse]; cases txParse h <;> rfl
  | _ => rfl

/-- The response a request gets once its size is admitted. -/
def requestResponse (p : Params) (r : Request) : Response :=
  match decode r with
  | .ok i => instrResponse p i
  | .error e => errResponse (rejectErr e)

/-- A step, all of it: idle, or a refusal of an oversize operand, or one response to the request that answers. -/
theorem step_eq (s : State) :
    step s =
      match s.inFlight[finishIndex s.turn s.inFlight.length]? with
      | none => .next s
      | some r =>
        if oversize s.params r.operand then .refused (.oversizeOperand r.operand.tag)
        else .next ((s.dequeue (finishIndex s.turn s.inFlight.length)).deliver (requestResponse s.params r)) := by
  unfold step
  cases hr : s.inFlight[finishIndex s.turn s.inFlight.length]? with
  | none => simp only [hr]
  | some r =>
    simp only [hr, requestResponse]
    split
    · rfl
    · cases decode r with
      | ok i => simp only [exec_eq]; rfl
      | error e => rfl

/-- What a step that goes on has done. -/
theorem step_cases {s t : State} (h : step s = .next t) :
    (s.inFlight = [] ∧ t = s) ∨
      ∃ k r, k = finishIndex s.turn s.inFlight.length ∧ s.inFlight[k]? = some r ∧ oversize s.params r.operand = false ∧
        t = (s.dequeue k).deliver (requestResponse s.params r) := by
  rw [step_eq] at h
  split at h
  · rename_i hn
    left
    refine ⟨?_, by simpa using h.symm⟩
    by_contra hne
    have := finishIndex_lt (turn := s.turn) (List.length_pos_iff.mpr hne)
    simp at hn
    omega
  · rename_i r hr
    right
    split at h
    · simp at h
    · rename_i hs
      exact ⟨_, r, rfl, hr, by simpa using hs, by simpa using h.symm⟩

/-- The response a request gets alone, once its size is admitted. -/
theorem ask_eq (p : Params) (r : Request) :
    ask p r = if oversize p r.operand then none else some (requestResponse p r) := by
  unfold ask
  rw [step_eq]
  simp only [State.alone_inFlight, List.length_singleton, finishIndex_one, List.getElem?_cons_zero, State.alone_params]
  by_cases h : oversize p r.operand = true <;> simp [h]

/-- A run goes on from the state its first step gives. -/
theorem run_succ (M : Host.Core) (n : Nat) {s s' : M.State} (h : M.step s = .next s') : M.run (n + 1) s = M.run n s' := by
  simp only [Host.Core.run, h]

end Sys2Proof.Machine
end

