-- ==== Sys2Proof/Tests/Slice0.lean ====
section
/-! SUPPORT. Tests on fixed values, every expected value taken from the spec's own tables (95_test_vectors.md and the rules
cited), and a witness for every statement that has hypotheses. -/

open Sys2Proof Sys2Proof.Machine Sys2Proof.Spec

namespace Sys2Proof.Tests

/-- A CORE at rest, with room for 100 pulses and 5 bytes, NEC_INT_TO_BYTES not given. -/
def idle : State := { params := ⟨100, 5, false⟩, inFlight := [], responses := [], turn := 0 }

/-- The same with requests in progress. -/
def busy (l : List Request) : State := { idle with inFlight := l }

/-- The responses after an outcome that goes on. -/
def reply : StepResult → Option (List Response)
  | .next t => some t.responses
  | .fault _ => none
  | .refused _ => none

/-- The refusal of an outcome that stops. -/
def refusal : StepResult → Option Refusal
  | .next _ => none
  | .fault _ => none
  | .refused r => some r

/-- What the model answers when the request with this header word's RSV and OP and this operand is served. -/
def served (rsv : BitVec 5) (op : BitVec 8) (x : Operand) : Option (List Response) :=
  reply (step (busy [{ rsv := rsv, op := op, operand := x }]))

/-! Frequent groups of the test vectors' own list. -/

def g9000 : List Char := ['2', '8', '2', '3']
def g4500 : List Char := ['9', '4', '1', '1']
def g2250 : List Char := ['c', 'a', '0', '8']
def g562 : List Char := ['3', '2', '0', '2']
def g1600 : List Char := ['4', '0', '0', '6']
def g2664 : List Char := ['6', '8', '0', 'a']
def g888 : List Char := ['7', '8', '0', '3']
def g444 : List Char := ['b', 'c', '0', '1']
def g1332 : List Char := ['3', '4', '0', '5']

/-- `n` copies of a group. -/
def times (n : Nat) (g : List Char) : List Char := (List.replicate n g).flatten

/-- The header of a good NEC frame and 64 more pulses: `d` first, then 562. -/
def necLine (a b c d : Pulse) : List Pulse := [a, b, c, d] ++ List.replicate 63 562#16

/-! ## Well-formedness: one ill-formed term per check, refused, beside the largest well-formed one (R58) -/

def small : Params := ⟨1, 5, false⟩

theorem test_wf_parse : WellFormed small (.txParseHex ['0', '0', '0', '0', '0']) = false ∧
    WellFormed small (.txParseHex ['0', '0', '0', '0']) = true := by decide
theorem test_wf_format : WellFormed small (.txFormatPulses [0, 0]) = false ∧
    WellFormed small (.txFormatPulses [0]) = true := by decide
theorem test_wf_necDecHex : WellFormed small (.necDecHex ['0', '0', '0', '0', '0']) = false ∧
    WellFormed small (.necDecHex ['0', '0', '0', '0']) = true := by decide
theorem test_wf_necDecPulses : WellFormed small (.necDecPulses [0, 0]) = false ∧
    WellFormed small (.necDecPulses [0]) = true := by decide
theorem test_wf_necEncBytes : WellFormed small (.necEncBytes [0, 0, 0, 0, 0, 0]) = false ∧
    WellFormed small (.necEncBytes [0, 0, 0, 0, 0]) = true := by decide
theorem test_wf_necRepHex : WellFormed small (.necRepHex ['0', '0', '0', '0', '0']) = false ∧
    WellFormed small (.necRepHex ['0', '0', '0', '0']) = true := by decide
theorem test_wf_necRepPulses : WellFormed small (.necRepPulses [0, 0]) = false ∧
    WellFormed small (.necRepPulses [0]) = true := by decide
theorem test_wf_rc6DecHex : WellFormed small (.rc6DecHex ['0', '0', '0', '0', '0']) = false ∧
    WellFormed small (.rc6DecHex ['0', '0', '0', '0']) = true := by decide
theorem test_wf_rc6DecPulses : WellFormed small (.rc6DecPulses [0, 0]) = false ∧
    WellFormed small (.rc6DecPulses [0]) = true := by decide
/-- FIELDS, INT and TOL have no limit (R62). -/
theorem test_wf_unlimited : WellFormed small (.rc6EncFields (List.replicate 40 0)) = true ∧
    WellFormed small (.rc6EncInt 0) = true ∧ WellFormed small (.necEncInt 0) = true ∧
    WellFormed small (.txTolTol 0 0 0 0) = true := by decide

/-! ## Decoding: RSV, TAG and OP written out from R61 to R64 -/

theorem test_decode_txParseHex : decodeTableWord 16 0b00000_000_00000001 = some (.txParseHex []) := by decide
theorem test_decode_txFormatPulses : decodeTableWord 16 0b00000_001_00000010 = some (.txFormatPulses []) := by decide
theorem test_decode_txTolTol : decodeTableWord 16 0b00000_101_00000011 = some (.txTolTol 0 0 0 0) := by decide
theorem test_decode_necDecHex : decodeTableWord 16 0b00000_000_00010000 = some (.necDecHex []) := by decide
theorem test_decode_necDecPulses : decodeTableWord 16 0b00000_001_00010000 = some (.necDecPulses []) := by decide
theorem test_decode_necEncBytes : decodeTableWord 16 0b00000_010_00010001 = some (.necEncBytes []) := by decide
theorem test_decode_necEncInt : decodeTableWord 16 0b00000_100_00010001 = some (.necEncInt 0) := by decide
theorem test_decode_necRepHex : decodeTableWord 16 0b00000_000_00010010 = some (.necRepHex []) := by decide
theorem test_decode_necRepPulses : decodeTableWord 16 0b00000_001_00010010 = some (.necRepPulses []) := by decide
theorem test_decode_rc6DecHex : decodeTableWord 16 0b00000_000_00100000 = some (.rc6DecHex []) := by decide
theorem test_decode_rc6DecPulses : decodeTableWord 16 0b00000_001_00100000 = some (.rc6DecPulses []) := by decide
theorem test_decode_rc6EncFields : decodeTableWord 16 0b00000_011_00100001 = some (.rc6EncFields []) := by decide
theorem test_decode_rc6EncInt : decodeTableWord 16 0b00000_100_00100001 = some (.rc6EncInt 0) := by decide

/-- The operand of a request comes through the decoder (R62). -/
theorem test_decode_operand :
    (decode { rsv := 0#5, op := 0x03#8, operand := .tol 6750 9000 1 4 }).toOption = some (.txTolTol 6750 9000 1 4) := by
  decide

/-- The decoder rejects by name, in the order of R79: RSV, OP, TAG (section 2.7 of the test vectors). -/
theorem test_decode_rejects :
    (match decodeWord 0x0813#16 (.hex []) with | .error e => some e | .ok _ => none) = some (.reservedBits 1) ∧
    (match decodeWord 0x00FF#16 (.hex []) with | .error e => some e | .ok _ => none) = some (.unassignedOp 0xFF) ∧
    (match decodeWord 0x0601#16 .reserved6 with | .error e => some e | .ok _ => none) = some (.illegalTag 0x01 6) := by
  decide

/-! ## Request checks (section 2.7) -/

theorem test_check_rsv_first : served 1 0x13 (.hex []) = some [errResp 6 0 0] ∧
    served 1 0x10 (.hex g9000) = some [errResp 6 0 0] := by decide
theorem test_check_op : served 0 0x13 (.hex []) = some [errResp 6 0 0] ∧ served 0 0x00 (.hex []) = some [errResp 6 0 0] ∧
    served 0 0xFF (.hex []) = some [errResp 6 0 0] := by decide
theorem test_check_tag : served 0 0x10 (.bytes [1, 2]) = some [errResp 4 0 0] ∧
    served 0 0x01 .reserved6 = some [errResp 4 0 0] ∧ served 0 0x01 (.pulses [9000]) = some [errResp 4 0 0] ∧
    served 0 0x02 (.hex g9000) = some [errResp 4 0 0] ∧ served 0 0x21 (.bytes [12]) = some [errResp 4 0 0] ∧
    served 0 0x12 (.fields [1]) = some [errResp 4 0 0] ∧ served 0 0x11 (.pulses [1, 2]) = some [errResp 4 0 0] := by decide
/-- R79: the size comes before RSV. -/
theorem test_check_size_first :
    refusal (step (busy [{ rsv := 1, op := 0xFF, operand := .bytes [0, 0, 0, 0, 0, 0] }])) =
      some (.oversizeOperand 2) := by decide

/-! ## Instructions (section 2 of the test vectors) -/

theorem test_parse_mixed_case : served 0 0x01 (.hex ['A', 'b', 'C', 'd']) = some [okResp (.pulses [52651])] := by decide
theorem test_parse_refuses : served 0 0x01 (.hex ['2', '8', 'g', '3']) = some [errResp 1 0 0] ∧
    served 0 0x01 (.hex ['2', '8', '2', '3', '2', '8']) = some [errResp 1 0 0] ∧
    served 0 0x01 (.hex []) = some [okResp (.pulses [])] := by decide
theorem test_format_low_byte_first : served 0 0x02 (.pulses [4660, 9000]) =
    some [okResp (.hex (['3', '4', '1', '2'] ++ g9000))] := by decide
theorem test_tol_edges : served 0 0x03 (.tol 6750 9000 1 4) = some [okResp (.bit true)] ∧
    served 0 0x03 (.tol 6749 9000 1 4) = some [okResp (.bit false)] ∧
    served 0 0x03 (.tol 11251 9000 1 4) = some [okResp (.bit false)] ∧
    served 0 0x03 (.tol 421 562 1 4) = some [okResp (.bit false)] := by decide
theorem test_tol_corners : served 0 0x03 (.tol 0 100 5 4) = some [okResp (.bit true)] ∧
    served 0 0x03 (.tol 65535 65535 65535 65535) = some [okResp (.bit true)] ∧
    served 0 0x03 (.tol 1 0 1 4) = some [okResp (.bit false)] ∧ served 0 0x03 (.tol 1 1 1 0) = some [errResp 4 0 0] := by
  decide
theorem test_necDecHex_errors : served 0 0x10 (.hex ['a', 'b', 'c']) = some [errResp 1 0 0] ∧
    served 0 0x10 (.hex (g9000 ++ g2250 ++ g562)) = some [errResp 2 1 2250] := by decide
/-- The threshold is strict, and bit 0 is the first data pulse (R112, R113). -/
theorem test_necDec_first_bit :
    served 0 0x10 (.pulses (necLine 9000 4500 562 1082)) = some [okResp (.payload ⟨1, 0, 0, 0⟩)] ∧
    served 0 0x10 (.pulses (necLine 6750 5625 422 1081)) = some [okResp (.payload ⟨0, 0, 0, 0⟩)] := by decide +kernel
theorem test_necDec_errors : served 0 0x10 (.pulses [6749, 3374, 421]) = some [errResp 2 0 6749] ∧
    served 0 0x10 (.pulses [9000, 4500, 562]) = some [errResp 5 0 3] ∧
    served 0 0x10 (.pulses [9000, 4500]) = some [errResp 5 0 2] := by decide
/-- Bit 0 of the first byte goes first (section 2.3). -/
theorem test_necEnc_bit_order : served 0 0x11 (.bytes [1, 0, 0, 0]) =
    some [okResp (.hex (g9000 ++ g4500 ++ g562 ++ g1600 ++ times 31 (g562 ++ g562) ++ g562))] := by decide +kernel
theorem test_necEnc_short_form_and_length :
    served 0 0x11 (.bytes [0, 0]) = some [okResp (.hex (g9000 ++ g4500 ++ times 8 (g562 ++ g562) ++
      times 8 (g562 ++ g1600) ++ times 8 (g562 ++ g562) ++ times 8 (g562 ++ g1600) ++ g562))] ∧
    served 0 0x11 (.bytes [1, 2, 3, 4, 5]) = some [errResp 3 0 5] := by decide +kernel
theorem test_necEncInt_not_given : served 0 0x11 (.int 5) = some [errResp 4 0 0] := by decide
theorem test_necRepHex : served 0 0x12 (.hex (g9000 ++ g2250 ++ g562)) = some [okResp (.bit true)] ∧
    served 0 0x12 (.hex ['a', 'b', 'c']) = some [okResp (.bit false)] := by decide
theorem test_necRep_edges : served 0 0x12 (.pulses [11250, 2812, 702]) = some [okResp (.bit true)] ∧
    served 0 0x12 (.pulses [9000, 2813, 562]) = some [okResp (.bit false)] ∧
    served 0 0x12 (.pulses [9000, 1687, 562]) = some [okResp (.bit false)] ∧
    served 0 0x12 (.pulses [9000, 2250, 562, 0]) = some [okResp (.bit false)] ∧
    served 0 0x12 (.pulses [9000, 2250]) = some [okResp (.bit false)] := by decide
theorem test_rc6DecHex : served 0 0x20 (.hex ['a', 'b', 'c']) = some [errResp 1 0 0] ∧
    served 0 0x20 (.hex (g9000 ++ g4500)) = some [errResp 2 3 9000] := by decide
/-- The walk reads positions 2 to 10 and 12 to 23, the sentinel last (section 2.5). -/
theorem test_rc6Dec_walk : served 0 0x20 (.pulses ([2664, 888] ++ List.replicate 21 1000#16)) =
    some [okResp (.record ⟨85, 165, 0, 5⟩)] := by decide +kernel
theorem test_rc6Dec_errors : served 0 0x20 (.pulses [2664]) = some [errResp 2 4 65535] ∧
    served 0 0x20 (.pulses [2664, 888]) = some [errResp 5 0 2] ∧
    served 0 0x20 (.pulses ([2664, 888] ++ List.replicate 20 1000#16)) = some [errResp 5 0 22] := by decide +kernel
/-- The toggle cell, the merges and the end on a mark (section 2.6, fields [0, 0, 1, 0]). -/
theorem test_rc6EncFields_toggle : served 0 0x21 (.fields [0, 0, 1, 0]) =
    some [okResp (.hex (g2664 ++ g888 ++ g444 ++ g888 ++ times 4 g444 ++ g1332 ++ g1332 ++ times 31 g444))] := by
  decide +kernel
theorem test_rc6EncFields_masks_and_type : served 0 0x21 (.fields [511, 256, 3, 9]) =
      some [okResp (.hex (g2664 ++ g888 ++ g444 ++ g888 ++ g444 ++ g444 ++ g888 ++ g444 ++ g888 ++ g1332 ++
        times 14 g444 ++ g888 ++ times 14 g444))] ∧
    served 0 0x21 (.fields []) = some [errResp 4 0 0] ∧
    served 0 0x21 (.fields [1, 2, 3, 4, 5]) = some [errResp 4 0 0] := by decide +kernel
/-- A dropped last space, and the mask of INT (section 2.6: 268 is 12; [1, 0, 0, 0] has 41 pulses). -/
theorem test_rc6EncInt : served 0 0x21 (.int 257) =
    some [okResp (.hex (g2664 ++ g888 ++ g444 ++ g888 ++ times 5 g444 ++ g888 ++ g888 ++ times 29 g444 ++ g888))] := by
  decide +kernel

/-! ## The host's rules (section 3) -/

theorem test_classify_repeat : classify idle.params (g9000 ++ g2250 ++ g562) = some .necRepeat ∧
    classify idle.params ['a', 'b', 'c'] = some .nothing := by decide
theorem test_program : runProgram idle.params
    [{ rsv := 0, op := 0x02, operand := .value (.pulses [9000]) }, { rsv := 0, op := 0x01, operand := .hexResult 0 }] [] =
      some [okResp (.hex g9000), okResp (.pulses [9000])] := by decide

/-- Bytes of a decoded payload as a later operand (log 17); a bit is no operand. -/
theorem test_program_operands :
    (HostOperand.bytesResult 0).resolve [okResp (.payload ⟨4, 0xfb, 8, 0xf7⟩)] = some (.bytes [4, 0xfb, 8, 0xf7]) ∧
    (HostOperand.bytesResult 0).resolve [okResp (.bit true)] = none := by decide
/-- R77's syntax has no place for RSV (log 15). -/
theorem test_requestText_rsv : requestText { rsv := 1, op := 0x21, operand := .int 12 } = none ∧
    (requestText { rsv := 0, op := 0x21, operand := .int 12 }).isSome = true := ⟨rfl, rfl⟩

/-! ## Each table word runs as the first request after reset -/

theorem test_first_step_ok :
    reply (step (State.reset.withFetchWord 16 0x0001)) = some [okResp (.pulses [])] ∧
    reply (step (State.reset.withFetchWord 16 0x0102)) = some [okResp (.hex [])] ∧
    reply (step (State.reset.withFetchWord 16 0x0012)) = some [okResp (.bit false)] ∧
    reply (step (State.reset.withFetchWord 16 0x0503)) = some [errResp 4 0 0] ∧
    reply (step (State.reset.withFetchWord 16 0x0411)) = some [errResp 4 0 0] := by decide

/-! ## Witnesses: for every statement with hypotheses, values that meet them, clause by clause -/

/-- A request of each kind that the witnesses use: legal, of every size it may have at MAX_PULSES = 100, MAX_BYTES = 5. -/
def parseReq : Request := encode (.txParseHex g9000)
def tolReq : Request := encode (.txTolTol 1 1 1 0)
def bigReq : Request := { rsv := 0, op := 0x11, operand := .bytes [0, 0, 0, 0, 0, 0] }

/-- A state with a response pending and a request in progress that meets the invariant. -/
def pending : State := { busy [parseReq] with responses := [errResp 2 4 65535] }

theorem witness_StepKeepsResponsesWellFormed : pending.Inv ∧ ∃ t, step pending = .next t :=
  ⟨⟨by decide, by decide⟩, _, rfl⟩
theorem witness_StepAnswersAtMostOneRequest : (∃ t, step pending = .next t) ∧ ∃ t, step idle = .next t :=
  ⟨⟨_, rfl⟩, _, rfl⟩
theorem witness_StepRunsDecodedInstruction :
    (busy [parseReq]).inFlight[finishIndex 0 1]? = some parseReq ∧ (busy [parseReq]).inFlight = [parseReq] ∧
    decode parseReq = .ok (.txParseHex g9000) ∧ WellFormed idle.params (.txParseHex g9000) = true ∧
    decodeTableWord 16 0x0503 = some (.txTolTol 0 0 0 0) := ⟨rfl, rfl, rfl, by decide, by decide⟩
theorem witness_IdleCoreStaysIdle : idle.inFlight = [] := rfl
theorem witness_EveryAdmittedRequestAnswers : (busy [parseReq, tolReq]).admitted ∧ (busy [bigReq]).Inv ∧
    refusal (step (busy [bigReq])) = some (.oversizeOperand 2) :=
  ⟨by unfold State.admitted; decide, ⟨by decide, by decide⟩, by decide⟩
theorem witness_ConcurrentRequestsAnswerAsAlone : (busy [parseReq, tolReq, tolReq]).admitted := by
  unfold State.admitted; decide
theorem witness_StepKeepsTheResponsesToCome : (busy [tolReq]).admitted ∧
    reply (step (busy [tolReq])) = some [errResp 4 0 0] := ⟨by unfold State.admitted; decide, by decide⟩
theorem witness_ResetAbortsAndReissueAnswersAlike :
    tolReq ∈ (busy [parseReq, tolReq]).inFlight ∧ ask idle.params tolReq = some (errResp 4 0 0) := by decide
theorem witness_HeaderFieldsAreTheWordsBits : 8 ≠ 16 ∧ 15 ≠ 16 ∧ 17 ≠ 16 ∧ 2 ^ 16 ≤ 65536 := by decide
/-- One length only (R61): the word of TX.PARSE in 8 bits names nothing. -/
theorem test_decode_one_length : decodeTableWord 8 1 = none ∧ decodeTableWord 24 1 = none := by decide
/-- The five outcomes of the request checks; NEC.ENC INT is refused its TAG, and legal, by the parameter alone. -/
theorem witness_RequestChecksInOrder :
    (busy [bigReq]).inFlight = [bigReq] ∧ oversize idle.params bigReq.operand = true ∧
    oversize idle.params (.bytes [0, 0, 0, 0, 0]) = false ∧ oversize idle.params .reserved7 = false ∧
    (1#5 : BitVec 5) ≠ 0#5 ∧ 0x13#8 ∉ opCodes ∧ 0x22#8 ∉ opCodes ∧ 0x21#8 ∈ opCodes ∧
    (0x01#8, 7#3) ∉ legalPairs ∧ (0x21#8, 2#3) ∉ legalPairs ∧ idle.params.necIntGiven = false ∧
    (0x11#8, 4#3) ∈ legalPairs ∧ (0x21#8, 4#3) ∈ legalPairs := by decide
theorem witness_OversizeOperandIsRefused : (busy [bigReq]).inFlight = [bigReq] ∧
    refusal (step (busy [{ bigReq with operand := .bytes [0, 0, 0, 0, 0] }])) = none ∧
    refusal (step (busy [bigReq])) = some (.oversizeOperand 2) ∧
    refusal (step { busy [{ parseReq with operand := .hex ['0', '0', '0', '0', '0'] }] with params := small }) =
      some (.oversizeOperand 0) ∧
    refusal (step { busy [{ parseReq with operand := .pulses [0, 0] }] with params := small }) =
      some (.oversizeOperand 1) ∧
    refusal (step { busy [{ parseReq with operand := .pulses [0] }] with params := small }) = none := by decide
theorem witness_EveryInstructionAnswersAsFunctionOfItsRequest :
    idle.params.necIntGiven = pending.params.necIntGiven ∧ idle ≠ pending := by decide
theorem witness_PulseAtReadsOrRaisesRange : 1 < [7#16, 8#16].length ∧ [7#16, 8#16].length ≤ 2 := by decide
/-- For TxParseReadsGroups, DecodersParseHexFirst and NecRepeatClassifies: a good string, a short one, and characters just
outside each range of digits. -/
theorem witness_hexDigits : g2250.length % 4 = 0 ∧ (∀ c ∈ ['0', '9', 'a', 'f', 'A', 'F'], IsHexDigit c) ∧
    ['0', '9', 'A', 'F'][4 * 0]? = some '0' ∧ ['0', '9', 'A', 'F'][4 * 0 + 3]? = some 'F' ∧
    ['0', '0', '0'].length % 4 ≠ 0 ∧ (∀ c ∈ ['/', ':', '@', 'G', '`', 'g', ' ', '\n'], ¬ IsHexDigit c) := by
  refine ⟨by decide, ?_, rfl, rfl, by decide, ?_⟩ <;> simp [IsHexDigit, lowerDigits, upperDigits]
theorem witness_TxFormatWritesGroups : [1#16, 65535#16][1]? = some 65535#16 := rfl
theorem witness_TranscoderLaws : (txParse ['A', 'b', 'C', 'd']).toOption = some [0xcdab#16] := by decide
theorem witness_ToleranceWindowIsExact : 1 ≤ 1 ∧ tol 5 5 0 1 = true ∧ tol 6 5 0 1 = false := by decide
theorem witness_TxTolAnswersWindow : (0#16 = 0#16) ∧ (1#16 ≠ 0#16) ∧ (4#16).toNat < (5#16).toNat := by decide
/-- A frame of 67 pulses with its header at the window edges. -/
theorem witness_NecDecodeReadsThirtyTwoBits : ∀ a ∈ [6750#16, 11250#16], ∀ b ∈ [3375#16, 5625#16],
    ∀ c ∈ [422#16, 702#16],
      Reads .necDecPulses .necDecHex (.necDecPulses (necLine a b c 1081)) (necLine a b c 1081) ∧
      necLine a b c 1081 = a :: b :: c :: 1081 :: List.replicate 63 562#16 ∧
      Within a 6750 11250 ∧ Within b 3375 5625 ∧ Within c 422 702 ∧ 67 ≤ (necLine a b c 1081).length := by
  simp [Within, necLine, Reads]
/-- For the decoders' statements: both operand forms. -/
theorem witness_reads : Reads .necDecPulses .necDecHex (.necDecPulses [9000]) [9000] ∧
    Reads .necDecPulses .necDecHex (.necDecHex g9000) [9000] ∧
    Reads .rc6DecPulses .rc6DecHex (.rc6DecPulses [2664]) [2664] ∧
    Reads .rc6DecPulses .rc6DecHex (.rc6DecHex g2664) [2664] :=
  ⟨.inl rfl, .inr ⟨_, rfl, rfl⟩, .inl rfl, .inr ⟨_, rfl, rfl⟩⟩
/-- Just outside each NEC header window, and a stream of 66. -/
theorem witness_NecDecodeErrorPriority : (∀ a ∈ [6749#16, 11251#16], ¬ Within a 6750 11250) ∧
    (∀ b ∈ [3374#16, 5626#16], ¬ Within b 3375 5625) ∧ (∀ c ∈ [421#16, 703#16], ¬ Within c 422 702) ∧
    (necLine 9000 4500 562 0).dropLast.length < 67 ∧ 67 ≤ (necLine 9000 4500 562 0).length := by simp [Within, necLine]
/-- For NecEncodeBuildsFrame and NecRoundTrip (section 2.3's expansions). -/
theorem witness_NecEncodeBuildsFrame : Normalized [4, 8] ⟨4, 0xfb, 8, 0xf7⟩ ∧
    Normalized [0x34, 0x12, 0x56] ⟨0x34, 0x12, 0x56, 0xa9⟩ ∧ Normalized [0, 0xef, 3, 0xfc] ⟨0, 0xef, 3, 0xfc⟩ ∧
    (∀ n ∈ [0, 1, 5], n ≠ 2 ∧ n ≠ 3 ∧ n ≠ 4) :=
  ⟨.inl ⟨4, 8, rfl, rfl⟩, .inr (.inl ⟨_, _, _, rfl, rfl⟩), .inr (.inr ⟨_, _, _, _, rfl, rfl⟩), by decide⟩
/-- The parameter gives bytes or an error, for every integer, so one of the last two clauses always applies. -/
theorem witness_NecEncodeIntFollowsParameter (v : Field) : idle.params.necIntGiven = false ∧
    ({ idle with params := ⟨100, 5, true⟩ } : State).params.necIntGiven = true ∧
    ((∃ x, Config.necIntToBytes v = .ok x) ∨ ∃ e, Config.necIntToBytes v = .error e) := by
  refine ⟨rfl, rfl, ?_⟩
  cases Config.necIntToBytes v
  · exact .inr ⟨_, rfl⟩
  · exact .inl ⟨_, rfl⟩
theorem witness_NecRepeatClassifies : (∀ u ∈ [6750#16, 11250#16], Within u 6750 11250) ∧
    (∀ v ∈ [1688#16, 2812#16], Within v 1688 2812) ∧ (∀ v ∈ [1687#16, 2813#16], ¬ Within v 1688 2812) ∧
    (g9000 ++ g2250 ++ g562).length % 4 = 0 := by simp [Within, g9000, g2250, g562]
/-- The shortest walk that ends inside its stream (23 pulses and the sentinel), and one pulse fewer. -/
def longPulses (n : Nat) : List Pulse := [2886, 1110] ++ List.replicate n 1000#16
/-- The positions of the walk over a stream, in order. -/
def walkPos (x : List Pulse) : Nat → Nat
  | 0 => 2
  | n + 1 => nextPos x (walkPos x n)
theorem witness_Rc6DecodeFollowsWalk :
    (∀ n ∈ [20, 21], padded (longPulses n) = 2886 :: 1110 :: (padded (longPulses n)).drop 2) ∧
    walkPos (padded (longPulses 21)) 20 = 23 ∧ (padded (longPulses 21)).length = 24 ∧
    (padded (longPulses 20)).length ≤ walkPos (padded (longPulses 20)) 20 := by decide +kernel
theorem witness_Rc6WalkLengthNeeded (n : Nat) :
    Reads .rc6DecPulses .rc6DecHex (.rc6DecPulses (longPulses n)) (longPulses n) ∧
    Within 2886 2442 2886 ∧ Within 1110 666 1110 := by simp [Within, Reads]
/-- `walkPos` is a walk as the statements ask for one, over any stream. -/
theorem witness_walk (x : List Pulse) : walkPos x 0 = 2 ∧ ∀ n < 20, walkPos x (n + 1) = nextPos x (walkPos x n) :=
  ⟨rfl, fun _ _ => rfl⟩
/-- For Rc6DecodeFollowsWalk, Rc6DecodeErrorPriority and Rc6WalkLengthNeeded: the leader windows' edges, both sides. -/
theorem witness_rc6_leader : (∀ a ∈ [2442#16, 2886#16], Within a 2442 2886) ∧ (∀ b ∈ [666#16, 1110#16], Within b 666 1110) ∧
    (∀ a ∈ [2441#16, 2887#16], ¬ Within a 2442 2886) ∧ (∀ b ∈ [665#16, 1111#16], ¬ Within b 666 1110) := by
  simp [Within]
/-- Streams of 1, 2, 3, 22, 23, 42 and 43 pulses meet the length clauses of R181. -/
theorem witness_Rc6DecodeErrorPriority : (longPulses 0).length = 2 ∧ 3 ≤ (longPulses 1).length ∧
    (longPulses 20).length ≤ 22 ∧ 23 ≤ (longPulses 21).length ∧ (longPulses 40).length ≤ 42 ∧
    43 ≤ (longPulses 41).length := by decide
theorem witness_Rc6EncodeSendsTheSignal : FieldsOf (.rc6EncFields [1]) ⟨1, 0, 0, 0⟩ ∧
    FieldsOf (.rc6EncFields [1, 2]) ⟨1, 2, 0, 0⟩ ∧ FieldsOf (.rc6EncFields [1, 2, 3]) ⟨1, 2, 3, 0⟩ ∧
    FieldsOf (.rc6EncFields [1, 2, 3, 4]) ⟨1, 2, 3, 4⟩ ∧ FieldsOf (.rc6EncInt 1) ⟨1, 0, 0, 0⟩ :=
  ⟨.inl ⟨_, rfl, rfl⟩, .inr (.inl ⟨_, _, rfl, rfl⟩), .inr (.inr (.inl ⟨_, _, _, rfl, rfl⟩)),
    .inr (.inr (.inr (.inl ⟨_, _, _, _, rfl, rfl⟩))), .inr (.inr (.inr (.inr ⟨_, rfl, rfl⟩)))⟩
/-- The clause on every stream: the pulses of a frame that the spec lists (section 2.6, fields [0, 0, 0, 0]) meet it. -/
theorem witness_Rc6EncodeSendsTheSignal_stream :
    let g := [2664#16, 888, 444, 888] ++ List.replicate 5 444#16 ++ [888, 888] ++ List.replicate 32 444#16
    g.length % 2 = 1 ∧ (∀ v ∈ g, 0 < v.toNat ∧ v.toNat % 444 = 0) ∧ streamSignal g = frameSignal ⟨0, 0, 0, 0⟩ := by
  refine ⟨by decide, ?_, by decide +kernel⟩
  simp
theorem witness_Rc6EncodeOperandForms : ([] : List Field).length = 0 ∧ 4 < [1#32, 2#32, 3#32, 4#32, 5#32].length := by
  decide
theorem witness_Rc6FrameLength : (rc6Word ⟨0, 0, 0, 0⟩).getLsbD 0 = false ∧ (rc6Word ⟨1, 0, 0, 0⟩).getLsbD 0 = true ∧
    (rc6Frame (rc6Word ⟨0, 0, 0, 0⟩)).length = 43 ∧ (rc6Frame (rc6Word ⟨85, 85, 1, 2⟩)).length = 23 := by decide +kernel
/-- R157's table, both sides: section 2.6's [0, 128, 0, 1] survives, [12, 128, 1, 0] does not. -/
theorem witness_Rc6RoundTripExactly : roundTrips ⟨0, 128, 0, 1⟩ ∧ ¬ roundTrips ⟨12, 128, 1, 0⟩ := by
  unfold roundTrips; decide
/-- For NecFramesAndRepeatCodesAreDisjoint: a header that passes, and a repeat code's gap, which does not. -/
theorem witness_FramesAndRepeatCodes : Within 9000 6750 11250 ∧ Within 4500 3375 5625 ∧ Within 562 422 702 ∧
    ¬ Within 2250 3375 5625 := by simp [Within]
theorem witness_AtMostOneCodecClaimsALine : g9000.length ≤ 4 * small.maxPulses := by decide

end Sys2Proof.Tests
end

