-- ==== Sys2Proof/Proofs/Scope.lean ====
section
/-! PROOFS. The statements of 00_scope.md: the tolerance window (R14) and the sizes of the CORE at reset (R8, D17). -/

namespace Sys2Proof

theorem Params.wf_iff (p : Params) :
    p.wf = true ↔ p.maxPulses < 2 ^ 32 ∧ 5 ≤ p.maxBytes ∧ p.maxBytes < 2 ^ 32 := by
  simp [Params.wf, and_assoc]

/-- D17's bounds hold for every value of the two uninterpreted words: a word is below 2^32, and MAX_BYTES is raised to 5. -/
theorem Config.params_wf : Config.params.wf = true :=
  (Params.wf_iff _).mpr
    ⟨Config.maxPulsesWord.isLt, Nat.le_max_left _ _, Nat.max_lt.mpr ⟨by decide, Config.maxBytesWord.isLt⟩⟩

end Sys2Proof

namespace Sys2Proof.Machine

open Sys2Proof

/-- With no response pending, the invariant asks only for the sizes. -/
theorem State.inv_iff_wf_of_responses_nil {s : State} (h : s.responses = []) : s.Inv ↔ s.params.wf = true := by
  simp [State.Inv, h]

/-- Settles O2: the sizes at reset are within D17's bounds, and no response is pending. -/
theorem invariantHoldsAtReset : Obligations.InvariantHoldsAtReset :=
  (State.inv_iff_wf_of_responses_nil State.reset_responses).mpr Config.params_wf

/-- The window in the integers, for every tolerance: `tol_iff` without its `p ≤ q`. -/
theorem tol_iff_int (m n p q : Nat) :
    tol m n p q = true ↔ (n : ℤ) * ((q : ℤ) - p) ≤ (m : ℤ) * q ∧ (m : ℤ) * q ≤ (n : ℤ) * ((q : ℤ) + p) := by
  rw [tol, Bool.and_eq_true, decide_eq_true_iff, decide_eq_true_iff]

/-- R14's lower end, multiplied through by `q`. -/
theorem tol_lower_rat_iff_int {m n p q : Nat} (hq : 0 < q) :
    (n : ℚ) * (1 - (p : ℚ) / q) ≤ m ↔ (n : ℤ) * ((q : ℤ) - p) ≤ (m : ℤ) * q := by
  have hq' : (0 : ℚ) < q := Nat.cast_pos.mpr hq
  have hmul : (n : ℚ) * (1 - (p : ℚ) / q) * q = n * (q - p) := by field_simp
  rw [← mul_le_mul_iff_left₀ hq', hmul]
  norm_cast

/-- R14's upper end, multiplied through by `q`. -/
theorem tol_upper_rat_iff_int {m n p q : Nat} (hq : 0 < q) :
    (m : ℚ) ≤ n * (1 + (p : ℚ) / q) ↔ (m : ℤ) * q ≤ (n : ℤ) * ((q : ℤ) + p) := by
  have hq' : (0 : ℚ) < q := Nat.cast_pos.mpr hq
  have hmul : (n : ℚ) * (1 + (p : ℚ) / q) * q = n * (q + p) := by field_simp
  rw [← mul_le_mul_iff_left₀ hq', hmul]
  norm_cast

/-- Settles O24: the model's window is the integer one, and each of its ends is the fraction's multiplied by `q`. -/
theorem toleranceWindowIsExact : Obligations.ToleranceWindowIsExact := by
  intro m n p q hq
  refine ⟨tol_iff_int m n p q, ?_⟩
  rw [tol_lower_rat_iff_int hq, tol_upper_rat_iff_int hq]
  exact tol_iff_int m n p q

end Sys2Proof.Machine
end

