-- ==== Sys2Proof/Proofs/State.lean ====
section
/-! PROOFS. The statements of 10_state.md: every response the CORE makes is well formed (R28, R29, R170), and the frame of
a step (R31, R51). -/

namespace Sys2Proof.Machine

open Sys2Proof

/-! ## Responses are well formed -/

/-- R28, R29, R170: the code and the information of each error kind are what a response without a result may hold. -/
theorem errResponse_wf (e : Err) : responseWf (errResponse e) = true := by
  cases e with
  | timing f v =>
    have hfield : (timingFieldCode f).toNat ≤ 4 := by cases f <;> decide
    have hvalue : (v.setWidth 32).toNat < 2 ^ 16 := by
      rw [BitVec.toNat_setWidth]
      exact (Nat.mod_le _ _).trans_lt v.isLt
    exact Bool.and_eq_true_iff.mpr ⟨decide_eq_true hfield, decide_eq_true hvalue⟩
  | _ => simp [responseWf, errResponse, errStatus, errFieldOf, errValueOf]

/-- A completed operation's response is well formed exactly when its result is. -/
theorem okResponse_wf (r : Result) : responseWf (okResponse r) = resultWf r := by
  simp [responseWf, okResponse]

/-- An operation that stops at an error, or maps its value to a well formed result, answers well. -/
theorem responseOf_map_wf {α : Type} (x : Except Err α) {f : α → Result} (hf : ∀ a, resultWf (f a) = true) :
    responseWf (responseOf (x.map f)) = true := by
  cases x with
  | error e => exact errResponse_wf e
  | ok a => exact (okResponse_wf (f a)).trans (hf a)

/-- An operation that stops at an error, or goes on to one that answers well, answers well. -/
theorem responseOf_bind_wf {α : Type} (x : Except Err α) {f : α → Except Err Result}
    (hf : ∀ a, responseWf (responseOf (f a)) = true) : responseWf (responseOf (x >>= f)) = true := by
  cases x with
  | error e => exact errResponse_wf e
  | ok a => exact hf a

/-! ## Hex results -/

/-- R26: the digits the transcoder writes are those of its output alphabet. -/
theorem isOutputDigit_hexDigit : ∀ n : BitVec 4, isOutputDigit (hexDigit n) = true := by decide

theorem txFormat_all_isOutputDigit (s : List Pulse) : (txFormat s).all isOutputDigit = true := by
  induction s with
  | nil => rfl
  | cons v s ih => simp only [txFormat_cons, List.all_cons, isOutputDigit_hexDigit, ih, Bool.and_self]

/-- R66, R67: a formatted stream is whole groups of four output digits. -/
theorem resultWf_txFormat (s : List Pulse) : resultWf (.hex (txFormat s)) = true := by
  have hgroups : (txFormat s).length % 4 = 0 := by rw [txFormat_length, Nat.mul_mod_right]
  exact Bool.and_eq_true_iff.mpr ⟨txFormat_all_isOutputDigit s, decide_eq_true hgroups⟩

/-- R122: the result of NEC.ENC is the formatted frame of the normalised bytes. -/
theorem necEncode_map_hex (x : List Byte) :
    (necEncode x).map Result.hex = (necNormalize x).map fun p => Result.hex (txFormat (necFrame p)) := by
  unfold necEncode
  cases necNormalize x <;> rfl

theorem necEncode_response_wf (x : List Byte) : responseWf (responseOf ((necEncode x).map Result.hex)) = true := by
  rw [necEncode_map_hex]
  exact responseOf_map_wf _ fun p => resultWf_txFormat (necFrame p)

/-! ## The response of a request -/

/-- R28, R170: every instruction answers well, whatever the parameters are; errors that NEC_INT_TO_BYTES gives are errors
of R13, and its bytes are encoded like any others. -/
theorem instrResponse_wf (p : Params) (i : Instr) : responseWf (instrResponse p i) = true := by
  cases i with
  | txParseHex h => exact responseOf_map_wf _ fun _ => rfl
  | txFormatPulses x => exact (okResponse_wf _).trans (resultWf_txFormat x)
  | txTolTol m n a q => exact responseOf_map_wf _ fun _ => rfl
  | necDecHex h => exact responseOf_bind_wf _ fun _ => responseOf_map_wf _ fun _ => rfl
  | necDecPulses x => exact responseOf_map_wf _ fun _ => rfl
  | necEncBytes x => exact necEncode_response_wf x
  | necEncInt v =>
    rw [instrResponse]
    split
    · exact responseOf_bind_wf _ necEncode_response_wf
    · exact errResponse_wf .type
  | necRepHex h => exact okResponse_wf _
  | necRepPulses x => exact okResponse_wf _
  | rc6DecHex h => exact responseOf_bind_wf _ fun _ => responseOf_map_wf _ fun _ => rfl
  | rc6DecPulses x => exact responseOf_map_wf _ fun _ => rfl
  | rc6EncFields f => exact responseOf_map_wf _ fun x => resultWf_txFormat (rc6Frame (rc6Word x))
  | rc6EncInt v => exact (okResponse_wf _).trans (resultWf_txFormat (rc6Frame (rc6Word (rc6FieldsOfInt v))))

/-- So does every request, legal or not. -/
theorem requestResponse_wf (p : Params) (r : Request) : responseWf (requestResponse p r) = true := by
  unfold requestResponse
  split
  · exact instrResponse_wf p _
  · exact errResponse_wf _

/-! ## Steps -/

/-- The invariant does not look at the requests in progress. -/
@[simp] theorem State.dequeue_inv (s : State) (k : Nat) : (s.dequeue k).Inv ↔ s.Inv := Iff.rfl

/-- The invariant after a delivery asks one thing more: that the new response is well formed. -/
theorem State.deliver_inv (s : State) (x : Response) : (s.deliver x).Inv ↔ s.Inv ∧ responseWf x = true := by
  simp only [State.Inv, State.deliver_params, State.deliver_responses, List.forall_mem_append, List.forall_mem_singleton,
    and_assoc]

/-- Settles O3: an idle step keeps the state, and any other delivers one response, which is well formed. -/
theorem stepKeepsResponsesWellFormed : Obligations.StepKeepsResponsesWellFormed := by
  intro s t hs h
  obtain ⟨-, rfl⟩ | ⟨k, r, -, -, -, rfl⟩ := step_cases h
  · exact hs
  · exact (State.deliver_inv _ _).mpr ⟨(State.dequeue_inv s k).mpr hs, requestResponse_wf s.params r⟩

/-- Settles O4: the two outcomes of `step_cases`, field by field. -/
theorem stepAnswersAtMostOneRequest : Obligations.StepAnswersAtMostOneRequest := by
  intro s t h
  obtain ⟨hidle, rfl⟩ | ⟨k, r, -, hr, -, rfl⟩ := step_cases h
  · exact ⟨rfl, .inl ⟨hidle, rfl⟩⟩
  · obtain ⟨hk, -⟩ := List.getElem?_eq_some_iff.mp hr
    exact ⟨rfl, .inr ⟨k, requestResponse s.params r, hk, rfl, rfl, rfl⟩⟩

end Sys2Proof.Machine
end

