-- ==== Sys2Proof/Proofs/Memory.lean ====
section
/-! PROOFS. The statements of 20_memory.md: the read primitive (R45), one response per instruction (R50, R51), the size
limits (R58), and the responses of concurrent requests (R52). -/

namespace Sys2Proof.Machine

open Sys2Proof

/-! ## Reading pulses -/

/-- Settles O20: the two cases of the read primitive. -/
theorem pulseAtReadsOrRaisesRange : Obligations.PulseAtReadsOrRaisesRange :=
  fun _ _ => ⟨pulseAt_of_lt, pulseAt_of_ge⟩

/-! ## One response per instruction -/

/-- The only parameter a response depends on is whether NEC_INT_TO_BYTES is given (log 4). -/
theorem instrResponse_congr {p q : Params} (h : p.necIntGiven = q.necIntGiven) (i : Instr) :
    instrResponse p i = instrResponse q i := by
  cases i with
  | necEncInt v => simp only [instrResponse, h]
  | _ => rfl

/-- In the words of the statements, an instruction answers with its response. -/
theorem answers_instrResponse (i : Instr) (s : State) : Spec.Answers i s (instrResponse s.params i) :=
  exec_eq i s

/-- Settles O17: the response is `instrResponse`, which the two states agree on. -/
theorem everyInstructionAnswersAsFunctionOfItsRequest : Obligations.EveryInstructionAnswersAsFunctionOfItsRequest := by
  intro i s t h
  refine ⟨instrResponse s.params i, answers_instrResponse i s, ?_⟩
  rw [instrResponse_congr h]
  exact answers_instrResponse i t

/-! ## Size limits -/

/-- The size check, written out as R58 has it. -/
theorem oversize_iff (p : Params) (x : Operand) :
    oversize p x = true ↔
      (∃ h, x = .hex h ∧ 4 * p.maxPulses < h.length) ∨ (∃ y, x = .pulses y ∧ p.maxPulses < y.length) ∨
        ∃ y, x = .bytes y ∧ p.maxBytes < y.length := by
  cases x <;> simp [oversize, longerThan_iff, Params.maxHex]

/-- A step with one request in progress: it is refused or answered, by its size alone. -/
theorem step_of_inFlight_singleton {s : State} {r : Request} (h : s.inFlight = [r]) :
    step s =
      if oversize s.params r.operand then .refused (.oversizeOperand r.operand.tag)
      else .next ((s.dequeue 0).deliver (requestResponse s.params r)) := by
  rw [step_eq, h]
  rfl

theorem step_refused_iff_of_inFlight_singleton {s : State} {r : Request} (h : s.inFlight = [r]) (q : Refusal) :
    step s = .refused q ↔ oversize s.params r.operand = true ∧ q = .oversizeOperand r.operand.tag := by
  rw [step_of_inFlight_singleton h]
  by_cases hsize : oversize s.params r.operand = true
  · simp only [hsize, if_true, Host.Outcome.refused.injEq, true_and, eq_comm]
  · simp [hsize]

/-- Settles O15: the only refusal of the step is the size check's. -/
theorem oversizeOperandIsRefused : Obligations.OversizeOperandIsRefused := by
  intro s r h
  refine ⟨?_, fun q hq => ((step_refused_iff_of_inFlight_singleton h q).mp hq).2⟩
  rw [← oversize_iff]
  simp [step_refused_iff_of_inFlight_singleton h]

/-! ## Admitted requests -/

theorem ask_of_not_oversize {p : Params} {r : Request} (h : oversize p r.operand = false) :
    ask p r = some (requestResponse p r) := by
  simp [ask_eq, h]

/-- With admitted requests in progress a step answers one of them. -/
theorem step_of_admitted {s : State} (hs : s.admitted) (hne : s.inFlight ≠ []) :
    ∃ k, ∃ hk : k < s.inFlight.length,
      step s = .next ((s.dequeue k).deliver (requestResponse s.params s.inFlight[k])) := by
  have hk := finishIndex_lt (turn := s.turn) (List.length_pos_iff.mpr hne)
  refine ⟨_, hk, ?_⟩
  rw [step_eq, List.getElem?_eq_getElem hk]
  simp [hs _ (List.getElem_mem hk)]

/-- A step removes requests in progress and adds none, so those left are admitted. -/
theorem step_keeps_admitted {s t : State} (hs : s.admitted) (h : step s = .next t) : t.admitted := by
  obtain ⟨-, rfl⟩ | ⟨k, r, -, -, -, rfl⟩ := step_cases h
  · exact hs
  · exact fun r' hr' => hs r' (List.mem_of_mem_eraseIdx hr')

/-! ## The responses pending or to come -/

/-- The responses pending, and after them what each request in progress gets when it is issued alone (R52). -/
def State.responsesToCome (s : State) : List (Option Response) :=
  s.responses.map some ++ s.inFlight.map (ask s.params)

/-- When request `k` gets the response it gets alone, that response is pending and no longer to come. -/
theorem State.responsesToCome_answer_perm {s : State} {k : Nat} {r : Request} {x : Response}
    (hr : s.inFlight[k]? = some r) (hx : ask s.params r = some x) :
    ((s.dequeue k).deliver x).responsesToCome.Perm s.responsesToCome := by
  obtain ⟨hk, rfl⟩ := List.getElem?_eq_some_iff.mp hr
  have hperm := ((List.getElem_cons_eraseIdx_perm hk).map (ask s.params)).append_left (s.responses.map some)
  simpa [State.responsesToCome, hx] using hperm

theorem step_responsesToCome_perm {s t : State} (h : step s = .next t) :
    t.responsesToCome.Perm s.responsesToCome := by
  obtain ⟨-, rfl⟩ | ⟨k, r, -, hr, hsize, rfl⟩ := step_cases h
  · exact .refl _
  · exact State.responsesToCome_answer_perm hr (ask_of_not_oversize hsize)

/-- Settles O45: whichever request the free choice takes, its response only moves from those to come to those pending. -/
theorem stepKeepsTheResponsesToCome : Obligations.StepKeepsTheResponsesToCome :=
  fun _ _ hs h => ⟨step_keeps_admitted hs h, step_responsesToCome_perm h⟩

/-! ## Concurrent requests -/

/-- What one step keeps up to reordering, as many steps as there are requests keep, and they answer every request. -/
theorem run_answers_all {s : State} (hs : s.admitted) :
    ∃ (t : State) (new : List Response), Sys2Proof.core.run s.inFlight.length s = .next t ∧ t.inFlight = [] ∧
      t.params = s.params ∧ t.responses = s.responses ++ new ∧ t.responsesToCome.Perm s.responsesToCome := by
  induction hn : s.inFlight.length generalizing s with
  | zero => exact ⟨s, [], rfl, List.length_eq_zero_iff.mp hn, rfl, (List.append_nil _).symm, .refl _⟩
  | succ n ih =>
    obtain ⟨k, hk, hstep⟩ := step_of_admitted hs (List.ne_nil_of_length_eq_add_one hn)
    have hlen : (s.inFlight.eraseIdx k).length = n := by rw [List.length_eraseIdx_of_lt hk, hn]; rfl
    obtain ⟨t, new, hrun, hidle, hparams, hresp, hperm⟩ := ih (step_keeps_admitted hs hstep) hlen
    exact ⟨t, requestResponse s.params s.inFlight[k] :: new, (run_succ Sys2Proof.core n hstep).trans hrun, hidle, hparams,
      hresp.trans (List.append_assoc _ [_] _), hperm.trans (step_responsesToCome_perm hstep)⟩

/-- Settles O8: when no request is left in progress, the new responses are those that were to come. -/
theorem concurrentRequestsAnswerAsAlone : Obligations.ConcurrentRequestsAnswerAsAlone := by
  intro s hs
  obtain ⟨t, new, hrun, hidle, hparams, hresp, hperm⟩ := run_answers_all hs
  refine ⟨t, new, hrun, hidle, hparams, hresp, ?_⟩
  simpa [State.responsesToCome, hidle, hresp, List.perm_append_left_iff] using hperm

end Sys2Proof.Machine
end

