-- ==== Sys2Proof/Proofs/Encoding.lean ====
section
/-! PROOFS. The statements of 30_encoding.md: the header word and the opcode table (R61 to R64, R77), the request checks and
the step that runs a request (R79), the formats of RESULT (R66), and the two encoders' frames (R72, R75). -/

namespace Sys2Proof

/-! ## The header word -/

/-- R61: the three fields side by side are the word. -/
theorem append_fields (h : Header) : rsvField h ++ tagField h ++ opField h = h := by
  apply BitVec.eq_of_getLsbD_eq
  intro k hk
  simp only [rsvField, tagField, opField, BitVec.getLsbD_append, BitVec.getLsbD_extractLsb', Nat.zero_add]
  by_cases hop : k < 8
  · simp [hop]
  · by_cases htag : k - 8 < 3
    · simp [hop, htag, show 8 + (k - 8) = k by omega]
    · simp [hop, htag, show k - 8 - 3 < 5 by omega, show 11 + (k - 8 - 3) = k by omega]

/-- The zero operand of a TAG has that TAG (log 6). -/
theorem Operand.tag_zero : ∀ t : BitVec 3, (Operand.zero t).tag = t := by decide

theorem Request.header_ofHeader (h : Header) : (Request.ofHeader h).header = h := by
  rw [Request.header, Request.ofHeader, Operand.tag_zero, append_fields]

/-- R61: the word as a number, from its three fields. -/
theorem header_toNat (h : Header) :
    h.toNat = (rsvField h).toNat * 2 ^ 11 + (tagField h).toNat * 2 ^ 8 + (opField h).toNat := by
  have hlt := h.isLt
  simp only [rsvField, tagField, opField, BitVec.extractLsb'_toNat, Nat.shiftRight_eq_div_pow]
  omega

theorem decodeTableWord_of_not_word {nbits w : Nat} (h : nbits ≠ 16 ∨ 2 ^ 16 ≤ w) : decodeTableWord nbits w = none :=
  if_neg fun ⟨hn, hw⟩ => h.elim (· hn) (Nat.not_le_of_lt hw)

/-- A table word that names an instruction is 16 bits of a request that decodes to it (log 6). -/
theorem decodeTableWord_eq_some {nbits w : Nat} {i : Instr} (h : decodeTableWord nbits w = some i) :
    nbits = 16 ∧ w < 2 ^ 16 ∧ decode (Request.ofHeader (BitVec.ofNat 16 w)) = .ok i := by
  unfold decodeTableWord at h
  split at h
  · rename_i hword
    split at h
    · rename_i j hj
      exact ⟨hword.1, hword.2, hj.trans (congrArg Except.ok (Option.some.inj h))⟩
    · simp at h
  · simp at h

/-- Settles O10: the fields of a concatenation, and the concatenation of the fields. -/
theorem headerFieldsAreTheWordsBits : Obligations.HeaderFieldsAreTheWordsBits :=
  ⟨fun _ => ⟨opField_append _ _ _, tagField_append _ _ _, rsvField_append _ _ _⟩, header_toNat,
    Request.header_ofHeader, fun _ _ => decodeTableWord_of_not_word⟩

/-! ## The opcode table -/

/-- R63: the code of each operation. -/
def Op.code : Op → BitVec 8
  | .txParse => 0x01#8
  | .txFormat => 0x02#8
  | .txTol => 0x03#8
  | .necDec => 0x10#8
  | .necEnc => 0x11#8
  | .necRep => 0x12#8
  | .rc6Dec => 0x20#8
  | .rc6Enc => 0x21#8

/-- R64: the operation of each instruction. -/
def Instr.op : Instr → Op
  | .txParseHex _ => .txParse
  | .txFormatPulses _ => .txFormat
  | .txTolTol _ _ _ _ => .txTol
  | .necDecHex _ => .necDec
  | .necDecPulses _ => .necDec
  | .necEncBytes _ => .necEnc
  | .necEncInt _ => .necEnc
  | .necRepHex _ => .necRep
  | .necRepPulses _ => .necRep
  | .rc6DecHex _ => .rc6Dec
  | .rc6DecPulses _ => .rc6Dec
  | .rc6EncFields _ => .rc6Enc
  | .rc6EncInt _ => .rc6Enc

theorem Op.ofCode_code (o : Op) : Op.ofCode o.code = some o := by cases o <;> rfl

theorem Op.eq_code_of_ofCode {c : BitVec 8} {o : Op} (h : Op.ofCode c = some o) : c = o.code := by
  unfold Op.ofCode at h
  split_ifs at h <;> cases h <;> assumption

theorem Op.ofCode_eq_some_iff (c : BitVec 8) (o : Op) : Op.ofCode c = some o ↔ c = o.code :=
  ⟨Op.eq_code_of_ofCode, fun h => h ▸ o.ofCode_code⟩

theorem Op.withOperand_eq_some_iff (o : Op) (x : Operand) (i : Instr) :
    o.withOperand x = some i ↔ o = i.op ∧ x = i.operand := by
  constructor
  · intro h
    cases o <;> cases x <;> cases h <;> exact ⟨rfl, rfl⟩
  · rintro ⟨rfl, rfl⟩
    cases i <;> rfl

/-- The decoder's table, in one line: the request has no reserved bit, the code of the instruction's operation and the
instruction's operand. -/
theorem decode_eq_ok_iff (r : Request) (i : Instr) :
    decode r = .ok i ↔ r.rsv = 0#5 ∧ r.op = i.op.code ∧ r.operand = i.operand := by
  rw [decode_eq]
  constructor
  · intro h
    split at h
    · simp at h
    · rename_i hrsv
      split at h
      · simp at h
      · rename_i o ho
        split at h
        · simp at h
        · rename_i j hj
          obtain rfl := Except.ok.inj h
          obtain ⟨rfl, hoperand⟩ := (Op.withOperand_eq_some_iff _ _ _).mp hj
          exact ⟨not_not.mp hrsv, Op.eq_code_of_ofCode ho, hoperand⟩
  · rintro ⟨hrsv, hop, hoperand⟩
    have ho := (Op.ofCode_eq_some_iff _ _).mpr hop
    have hi := (Op.withOperand_eq_some_iff i.op r.operand i).mpr ⟨rfl, hoperand⟩
    simp [hrsv, ho, hi]

/-- R61, R62: the table's word of an instruction has the TAG of the instruction's operand and no reserved bit. -/
theorem encodeHeader_tag_rsv (i : Instr) : Laws.HeaderTag.Statement i := by
  cases i with
  | txParseHex h => exact Laws.HeaderTag.txParseHex h
  | txFormatPulses s => exact Laws.HeaderTag.txFormatPulses s
  | txTolTol m n p q => exact Laws.HeaderTag.txTolTol m n p q
  | necDecHex h => exact Laws.HeaderTag.necDecHex h
  | necDecPulses s => exact Laws.HeaderTag.necDecPulses s
  | necEncBytes x => exact Laws.HeaderTag.necEncBytes x
  | necEncInt v => exact Laws.HeaderTag.necEncInt v
  | necRepHex h => exact Laws.HeaderTag.necRepHex h
  | necRepPulses s => exact Laws.HeaderTag.necRepPulses s
  | rc6DecHex h => exact Laws.HeaderTag.rc6DecHex h
  | rc6DecPulses s => exact Laws.HeaderTag.rc6DecPulses s
  | rc6EncFields f => exact Laws.HeaderTag.rc6EncFields f
  | rc6EncInt v => exact Laws.HeaderTag.rc6EncInt v

/-- R63: the table's word of an instruction has the code of its operation. -/
theorem opField_encodeHeader (i : Instr) : opField (encodeHeader i) = i.op.code := by
  cases i <;> rw [encodeHeader, Instr.op, Op.code] <;> decide

theorem encode_rsv (i : Instr) : (encode i).rsv = 0#5 := (encodeHeader_tag_rsv i).2
theorem encode_op (i : Instr) : (encode i).op = i.op.code := opField_encodeHeader i
@[simp] theorem encode_operand (i : Instr) : (encode i).operand = i.operand := rfl

/-- A request is its three fields. -/
theorem Request.eq_encode_iff (r : Request) (i : Instr) :
    r = encode i ↔ r.rsv = 0#5 ∧ r.op = i.op.code ∧ r.operand = i.operand := by
  rw [← encode_rsv i, ← encode_op i, ← encode_operand i]
  constructor
  · rintro rfl
    exact ⟨rfl, rfl, rfl⟩
  · rintro ⟨hrsv, hop, hoperand⟩
    cases r
    cases hrsv; cases hop; cases hoperand
    rfl

theorem decode_eq_ok_iff_eq_encode (r : Request) (i : Instr) : decode r = .ok i ↔ r = encode i :=
  (decode_eq_ok_iff r i).trans (Request.eq_encode_iff r i).symm

theorem encode_header (i : Instr) : (encode i).header = encodeHeader i := by
  rw [Request.header, encode_operand, ← (encodeHeader_tag_rsv i).1]
  exact append_fields (encodeHeader i)

/-- Settles O12: a request decodes to `i`, and is the encoding of `i`, under the same three conditions on its fields. -/
theorem decodeIsInverseOfEncode : Obligations.DecodeIsInverseOfEncode :=
  ⟨decode_eq_ok_iff_eq_encode, encode_header⟩

/-- R77: with no reserved bit, the word is the TAG above the OP. -/
theorem append_eq_shiftLeft_or (tag : BitVec 3) (op : BitVec 8) :
    0#5 ++ tag ++ op = (tag.setWidth 16 <<< 8) ||| op.setWidth 16 := by
  apply BitVec.eq_of_getLsbD_eq
  intro k hk
  rw [BitVec.getLsbD_append, BitVec.getLsbD_append, BitVec.getLsbD_or, BitVec.getLsbD_shiftLeft]
  by_cases hop : k < 8
  · simp [hop, hk]
  · simpa [hop, hk, BitVec.getLsbD_of_ge op k (Nat.le_of_not_lt hop), show k - 8 < 16 by omega] using
      BitVec.lt_of_getLsbD

/-- Settles O13: an encoding has no reserved bit. -/
theorem encodedHeaderIsTagThenOp : Obligations.EncodedHeaderIsTagThenOp := by
  refine fun i => ⟨?_, encode_operand i⟩
  rw [Request.header, encode_rsv, append_eq_shiftLeft_or]

/-- Settles O11: the decoder evaluated on the thirteen words. -/
theorem tableWordsDecode : Obligations.TableWordsDecode := by
  unfold Obligations.TableWordsDecode
  decide

/-! ## The request checks -/

/-- R79's check 2: RSV. -/
theorem decode_of_rsv_ne_zero {r : Request} (hrsv : r.rsv ≠ 0#5) : decode r = .error (.reservedBits r.rsv) := by
  rw [decode_eq, if_pos hrsv]

/-- R79's check 3: OP. -/
theorem decode_of_unassigned_op {r : Request} (hrsv : r.rsv = 0#5) (hop : Op.ofCode r.op = none) :
    decode r = .error (.unassignedOp r.op) := by
  simp [decode_eq, hrsv, hop]

/-- R79's check 4: TAG. -/
theorem decode_of_illegal_tag {r : Request} {o : Op} (hrsv : r.rsv = 0#5) (hop : r.op = o.code)
    (htag : o.withOperand r.operand = none) : decode r = .error (.illegalTag r.op r.operand.tag) := by
  rw [← Op.ofCode_eq_some_iff] at hop
  simp [decode_eq, hrsv, hop, htag]

theorem decode_encode (i : Instr) : decode (encode i) = .ok i := (decode_eq_ok_iff_eq_encode _ i).mpr rfl

/-- R63: the assigned codes are those of the operations. -/
theorem mem_opCodes_iff (c : BitVec 8) : c ∈ Spec.opCodes ↔ ∃ o : Op, c = o.code := by
  constructor
  · intro h
    have hcodes : Spec.opCodes =
      [Op.txParse, .txFormat, .txTol, .necDec, .necEnc, .necRep, .rc6Dec, .rc6Enc].map Op.code := rfl
    obtain ⟨o, -, rfl⟩ := List.mem_map.mp (hcodes ▸ h)
    exact ⟨o, rfl⟩
  · rintro ⟨o, rfl⟩
    cases o <;> decide

theorem Op.ofCode_eq_none_of_not_mem {c : BitVec 8} (h : c ∉ Spec.opCodes) : Op.ofCode c = none := by
  rw [Option.eq_none_iff_forall_ne_some]
  exact fun o ho => h ((mem_opCodes_iff c).mpr ⟨o, Op.eq_code_of_ofCode ho⟩)

/-- R64: the legal pairs are those the decoder's table has a row for. -/
theorem mem_legalPairs_iff (o : Op) (x : Operand) : (o.code, x.tag) ∈ Spec.legalPairs ↔ (o.withOperand x).isSome := by
  cases o <;> cases x <;> simp [Op.code, Operand.tag, Op.withOperand, Spec.legalPairs]

theorem fst_mem_opCodes_of_mem_legalPairs : ∀ c ∈ Spec.legalPairs, c.1 ∈ Spec.opCodes := by
  simp [Spec.legalPairs, Spec.opCodes]

/-- A request without reserved bits has a legal pair exactly when it is the encoding of an instruction. -/
theorem pair_mem_legalPairs_iff {r : Request} (hrsv : r.rsv = 0#5) :
    (r.op, r.operand.tag) ∈ Spec.legalPairs ↔ ∃ i, r = encode i := by
  simp only [Request.eq_encode_iff, hrsv, true_and]
  constructor
  · intro h
    obtain ⟨o, ho : r.op = o.code⟩ := (mem_opCodes_iff _).mp (fst_mem_opCodes_of_mem_legalPairs _ h)
    rw [ho, mem_legalPairs_iff, Option.isSome_iff_exists] at h
    obtain ⟨i, hi⟩ := h
    obtain ⟨rfl, hoperand⟩ := (Op.withOperand_eq_some_iff _ _ _).mp hi
    exact ⟨i, ho, hoperand⟩
  · rintro ⟨i, ho, hoperand⟩
    rw [ho, mem_legalPairs_iff, (Op.withOperand_eq_some_iff _ _ i).mpr ⟨rfl, hoperand⟩]
    rfl

end Sys2Proof

namespace Sys2Proof.Machine

open Sys2Proof

/-! ## The response of a request, check by check -/

theorem requestResponse_of_rsv_ne_zero (p : Params) {r : Request} (hrsv : r.rsv ≠ 0#5) :
    requestResponse p r = Spec.errResp 6#4 0#3 0#32 := by
  rw [requestResponse, decode_of_rsv_ne_zero hrsv]
  rfl

theorem requestResponse_of_op_not_mem (p : Params) {r : Request} (hrsv : r.rsv = 0#5) (hop : r.op ∉ Spec.opCodes) :
    requestResponse p r = Spec.errResp 6#4 0#3 0#32 := by
  rw [requestResponse, decode_of_unassigned_op hrsv (Op.ofCode_eq_none_of_not_mem hop)]
  rfl

theorem requestResponse_of_pair_not_mem (p : Params) {r : Request} (hrsv : r.rsv = 0#5) (hop : r.op ∈ Spec.opCodes)
    (hpair : (r.op, r.operand.tag) ∉ Spec.legalPairs) : requestResponse p r = Spec.errResp 4#4 0#3 0#32 := by
  obtain ⟨o, ho⟩ := (mem_opCodes_iff _).mp hop
  rw [ho, mem_legalPairs_iff, Option.not_isSome_iff_eq_none] at hpair
  rw [requestResponse, decode_of_illegal_tag hrsv ho hpair]
  rfl

@[simp] theorem requestResponse_encode (p : Params) (i : Instr) : requestResponse p (encode i) = instrResponse p i := by
  rw [requestResponse, decode_encode]

/-- R64, D10: NEC.ENC INT while NEC_INT_TO_BYTES is not given. -/
theorem requestResponse_of_necEncInt_not_given {p : Params} {r : Request} (hrsv : r.rsv = 0#5) (hop : r.op = 0x11#8)
    (htag : r.operand.tag = 4#3) (hgiven : p.necIntGiven = false) :
    requestResponse p r = Spec.errResp 4#4 0#3 0#32 := by
  obtain ⟨v, hv⟩ : ∃ v, r.operand = .int v := by
    cases hx : r.operand <;> simp [hx, Operand.tag] at htag
    exact ⟨_, rfl⟩
  rw [(Request.eq_encode_iff r (.necEncInt v)).mpr ⟨hrsv, hop, hv⟩, requestResponse_encode]
  simp only [instrResponse, hgiven]
  rfl

/-! ## One request in progress -/

theorem State.dequeue_zero_of_inFlight_singleton {s : State} {r : Request} (h : s.inFlight = [r]) :
    s.dequeue 0 = { s with inFlight := [], turn := s.turn + 1 } := by
  simp [State.dequeue, h]

/-- The step with one admitted request in progress delivers the response of that request. -/
theorem step_of_inFlight_singleton_admitted {s : State} {r : Request} (h : s.inFlight = [r])
    (hsize : oversize s.params r.operand = false) :
    step s = .next (State.deliver { s with inFlight := [], turn := s.turn + 1 } (requestResponse s.params r)) := by
  rw [step_of_inFlight_singleton h, hsize, State.dequeue_zero_of_inFlight_singleton h]
  rfl

/-- Settles O14: the response of the request at each of R79's checks, in their order. -/
theorem requestChecksInOrder : Obligations.RequestChecksInOrder := by
  intro s r h
  refine ⟨fun hsize => (step_refused_iff_of_inFlight_singleton h _).mpr ⟨hsize, rfl⟩, fun hsize => ?_⟩
  rw [step_of_inFlight_singleton_admitted h hsize]
  refine ⟨fun hrsv => ?_, fun hrsv hop => ?_, fun hrsv hop htag => ?_, fun hrsv hpair => ?_⟩
  · rw [requestResponse_of_rsv_ne_zero _ hrsv]; rfl
  · rw [requestResponse_of_op_not_mem _ hrsv hop]; rfl
  · obtain hpair | ⟨hnec, hint, hgiven⟩ := htag
    · rw [requestResponse_of_pair_not_mem _ hrsv hop hpair]; rfl
    · rw [requestResponse_of_necEncInt_not_given hrsv hnec hint hgiven]; rfl
  · obtain ⟨i, rfl⟩ := (pair_mem_legalPairs_iff hrsv).mp hpair
    exact ⟨i, rfl, by rw [requestResponse_encode, exec_eq]⟩

/-! ## The step runs the decoded instruction -/

/-- The size check of a request that decodes is that of its instruction. -/
theorem oversize_of_decode {p : Params} {r : Request} {i : Instr} (hr : decode r = .ok i) (hwf : WellFormed p i = true) :
    oversize p r.operand = false := by
  rw [decode_operand hr, oversize_operand, hwf]
  rfl

theorem step_of_decode {s : State} {r : Request} {i : Instr}
    (h : s.inFlight[finishIndex s.turn s.inFlight.length]? = some r) (hr : decode r = .ok i)
    (hwf : WellFormed s.params i = true) : step s = exec i (s.dequeue (finishIndex s.turn s.inFlight.length)) := by
  rw [step_eq, exec_eq, h]
  simp [oversize_of_decode hr hwf, requestResponse, hr]

theorem step_of_decode_singleton {s : State} {r : Request} {i : Instr} (h : s.inFlight = [r]) (hr : decode r = .ok i)
    (hwf : WellFormed s.params i = true) : step s = exec i { s with inFlight := [], turn := s.turn + 1 } := by
  rw [step_of_inFlight_singleton_admitted h (oversize_of_decode hr hwf), exec_eq, requestResponse, hr]

/-- The zero operands are within every limit: the sequences among them are empty. -/
theorem oversize_zero (p : Params) (t : BitVec 3) : oversize p (Operand.zero t) = false := by
  unfold Operand.zero
  split_ifs <;> rfl

/-- So an instruction that a table word names is within every limit. -/
theorem wellFormed_of_decode_ofHeader (p : Params) {h : Header} {i : Instr} (hi : decode (Request.ofHeader h) = .ok i) :
    WellFormed p i = true := by
  have hsize := oversize_zero p (tagField h)
  rwa [show Operand.zero (tagField h) = i.operand from decode_operand hi, oversize_operand, Bool.not_eq_false'] at hsize

theorem step_withFetchWord (s : State) {w : Nat} {i : Instr} (h : decodeTableWord 16 w = some i) :
    step (s.withFetchWord 16 w) = exec i { s with inFlight := [], turn := s.turn + 1 } := by
  obtain ⟨-, hw, hi⟩ := decodeTableWord_eq_some h
  refine step_of_decode_singleton (s := s.withFetchWord 16 w) (r := Request.ofHeader (BitVec.ofNat 16 w)) ?_ hi
    (wellFormed_of_decode_ofHeader _ hi)
  rw [State.withFetchWord, Nat.mod_eq_of_lt hw]

/-- Settles O5: a request that decodes to a well formed instruction passes every check of the step. -/
theorem stepRunsDecodedInstruction : Obligations.StepRunsDecodedInstruction :=
  ⟨fun _ _ _ => step_of_decode, fun _ _ _ => step_of_decode_singleton, fun s _ _ => step_withFetchWord s⟩

/-! ## The formats of RESULT -/

/-- R66, R171: a result of the format on STATUS 0, and none on any other STATUS. -/
def HasFormat (format : Result → Prop) (x : Response) : Prop :=
  (x.status = 0#4 ∧ ∃ r, x.result = some r ∧ format r) ∨ (x.status ≠ 0#4 ∧ x.result = none)

section
variable {format : Result → Prop}

theorem hasFormat_okResponse {r : Result} (h : format r) : HasFormat format (okResponse r) := .inl ⟨rfl, r, rfl, h⟩

theorem hasFormat_errResponse (e : Err) : HasFormat format (errResponse e) := .inr ⟨errStatus_ne_zero e, rfl⟩

theorem hasFormat_map {α : Type} (x : Except Err α) {f : α → Result} (h : ∀ a, format (f a)) :
    HasFormat format (responseOf (x.map f)) := by
  cases x with
  | error e => exact hasFormat_errResponse e
  | ok a => exact hasFormat_okResponse (h a)

theorem hasFormat_bind {α : Type} (x : Except Err α) {f : α → Except Err Result}
    (h : ∀ a, HasFormat format (responseOf (f a))) : HasFormat format (responseOf (x >>= f)) := by
  cases x with
  | error e => exact hasFormat_errResponse e
  | ok a => exact h a

end

/-- R26, R66: the format of the three operations that answer with a hex string. -/
def IsLowerHex (r : Result) : Prop := ∃ h, r = .hex h ∧ ∀ c ∈ h, c ∈ Spec.lowerDigits

theorem isLowerHex_txFormat (s : List Pulse) : IsLowerHex (.hex (txFormat s)) :=
  ⟨_, rfl, fun c hc => List.contains_iff_mem.mp (List.all_eq_true.mp (txFormat_all_isOutputDigit s) c hc)⟩

theorem hasFormat_necEncode (x : List Byte) : HasFormat IsLowerHex (responseOf ((necEncode x).map Result.hex)) := by
  rw [necEncode_map_hex]
  exact hasFormat_map _ fun p => isLowerHex_txFormat (necFrame p)

/-- R66, for the response of every instruction. -/
theorem instrResponse_hasFormat (p : Params) (i : Instr) : HasFormat (Spec.resultFormat i) (instrResponse p i) := by
  cases i with
  | txParseHex h => exact hasFormat_map _ fun s => ⟨s, rfl⟩
  | txFormatPulses x => exact hasFormat_okResponse (isLowerHex_txFormat x)
  | txTolTol m n a q => exact hasFormat_map _ fun b => ⟨b, rfl⟩
  | necDecHex h => exact hasFormat_bind _ fun _ => hasFormat_map _ fun x => ⟨x, rfl⟩
  | necDecPulses x => exact hasFormat_map _ fun x => ⟨x, rfl⟩
  | necEncBytes x => exact hasFormat_necEncode x
  | necEncInt v =>
    rw [instrResponse]
    split
    · exact hasFormat_bind _ hasFormat_necEncode
    · exact hasFormat_errResponse .type
  | necRepHex h => exact hasFormat_okResponse ⟨_, rfl⟩
  | necRepPulses x => exact hasFormat_okResponse ⟨_, rfl⟩
  | rc6DecHex h => exact hasFormat_bind _ fun _ => hasFormat_map _ fun x => ⟨x, rfl⟩
  | rc6DecPulses x => exact hasFormat_map _ fun x => ⟨x, rfl⟩
  | rc6EncFields f => exact hasFormat_map _ fun x => isLowerHex_txFormat (rc6Frame (rc6Word x))
  | rc6EncInt v => exact hasFormat_okResponse (isLowerHex_txFormat (rc6Frame (rc6Word (rc6FieldsOfInt v))))

/-- Settles O19: the response of the instruction has its operation's format. -/
theorem resultFormatsOfEachOperation : Obligations.ResultFormatsOfEachOperation :=
  fun i s => ⟨_, answers_instrResponse i s, instrResponse_hasFormat s.params i⟩

/-! ## The NEC frame -/

/-- R72: the normalisation gives the payload the bytes stand for. -/
theorem necNormalize_of_normalized {x : List Byte} {p : NecPayload} (h : Spec.Normalized x p) :
    necNormalize x = .ok p := by
  obtain ⟨a, c, rfl, rfl⟩ | ⟨a, b, c, rfl, rfl⟩ | ⟨a, b, c, d, rfl, rfl⟩ := h <;> rfl

theorem necNormalize_of_other_length {x : List Byte} (h2 : x.length ≠ 2) (h3 : x.length ≠ 3) (h4 : x.length ≠ 4) :
    necNormalize x = .error (.length x.length) := by
  unfold necNormalize
  split <;> simp_all

/-- R44: the bits of the payload word are those of the four bytes in order. -/
theorem getLsbD_necWord (p : NecPayload) {k : Nat} (hk : k < 32) : (necWord p).getLsbD k = Spec.payloadBit p k := by
  obtain ⟨j, r, hj, hr, rfl⟩ : ∃ j r, j < 4 ∧ r < 8 ∧ k = 8 * j + r := ⟨k / 8, k % 8, by omega, by omega, by omega⟩
  have hbyte : (8 * j + r) / 8 = j := by omega
  have hbit : (8 * j + r) % 8 = r := by omega
  rw [Spec.payloadBit, hbyte, hbit]
  interval_cases j <;> simp (disch := omega) [necWord, decide_eq_true, decide_eq_false, BitVec.getLsbD_of_ge]

/-- R69: a frame starts with the leader and ends with a bit-cell gap. -/
theorem necFrame_ends (p : NecPayload) :
    (necFrame p)[0]? = some 9000#16 ∧ (necFrame p)[1]? = some 4500#16 ∧ (necFrame p)[66]? = some 562#16 := by
  refine ⟨rfl, rfl, ?_⟩
  have hlast : (necFrame p).getLast? = some 562#16 := List.getLast?_concat
  rwa [List.getLast?_eq_getElem?, necFrame_length] at hlast

/-- NEC.ENC BYTES answers with the frame of the normalised bytes, or with the error of the normalisation (R122). -/
theorem answers_necEncBytes (x : List Byte) (s : State) :
    Spec.Answers (.necEncBytes x) s (responseOf ((necNormalize x).map fun p => Result.hex (txFormat (necFrame p)))) := by
  rw [← necEncode_map_hex]
  exact answers_instrResponse _ s

/-- Settles O30: `necFrame` of the payload is the frame, and its data pulses are the bits of the payload word. -/
theorem necEncodeBuildsFrame : Obligations.NecEncodeBuildsFrame := by
  constructor
  · intro x p s hx
    obtain ⟨hmark, hgap, hlast⟩ := necFrame_ends p
    refine ⟨necFrame p, ?_, necFrame_length p, by rw [txFormat_length, necFrame_length], hmark, hgap, hlast, ?_⟩
    · have h := answers_necEncBytes x s
      rwa [necNormalize_of_normalized hx] at h
    · intro k hk
      obtain ⟨hcell, hdata⟩ := necFrame_cell p k hk
      refine ⟨hcell, ?_⟩
      rw [hdata, getLsbD_necWord p hk]
      split <;> rfl
  · intro x s h2 h3 h4
    have h := answers_necEncBytes x s
    rwa [necNormalize_of_other_length h2 h3 h4] at h

/-! ## Streams as signals -/

/-- R42, R75: every pulse of the stream is a positive whole number of T units. -/
def WholeUnits (s : List Pulse) : Prop := ∀ v ∈ s, 0 < v.toNat ∧ v.toNat % 444 = 0

/-- The signal of a stream whose first pulse has the level `b`, by recursion on the stream. -/
def signalFrom : Bool → List Pulse → List Bool
  | _, [] => []
  | b, v :: s => List.replicate (v.toNat / 444) b ++ signalFrom (!b) s

theorem decide_even_succ (i : Nat) : decide ((i + 1) % 2 = 0) = !decide (i % 2 = 0) := by
  rw [← decide_not, decide_eq_decide]
  omega

theorem flatMap_zipIdx_eq_signalFrom (s : List Pulse) (i : Nat) :
    (s.zipIdx i).flatMap (fun v => List.replicate (v.1.toNat / 444) (decide (v.2 % 2 = 0))) =
      signalFrom (decide (i % 2 = 0)) s := by
  induction s generalizing i with
  | nil => rfl
  | cons v s ih =>
    rw [List.zipIdx_cons, List.flatMap_cons, ih, decide_even_succ, signalFrom]

theorem streamSignal_eq_signalFrom (s : List Pulse) : Spec.streamSignal s = signalFrom true s :=
  flatMap_zipIdx_eq_signalFrom s 0

/-- One more pulse adds its units, at the level of its index (R41). -/
theorem streamSignal_concat (s : List Pulse) (v : Pulse) :
    Spec.streamSignal (s ++ [v]) =
      Spec.streamSignal s ++ List.replicate (v.toNat / 444) (decide (s.length % 2 = 0)) := by
  simp [Spec.streamSignal, List.zipIdx_append]

theorem pulse_eq_of_units {v u : Pulse} (hv : v.toNat % 444 = 0) (hu : u.toNat % 444 = 0)
    (h : v.toNat / 444 = u.toNat / 444) : v = u := by
  apply BitVec.eq_of_toNat_eq
  omega

/-- A pulse of whole units is at least one unit long. -/
theorem WholeUnits.head_pos {v : Pulse} {s : List Pulse} (h : WholeUnits (v :: s)) : 0 < v.toNat / 444 := by
  have := h v List.mem_cons_self
  omega

theorem WholeUnits.tail {v : Pulse} {s : List Pulse} (h : WholeUnits (v :: s)) : WholeUnits s :=
  fun u hu => h u (List.mem_cons_of_mem v hu)

theorem signalFrom_cons_ne_nil {b : Bool} {v : Pulse} {s : List Pulse} (h : WholeUnits (v :: s)) :
    signalFrom b (v :: s) ≠ [] := by
  simp [signalFrom, h.head_pos.ne']

/-- The first run of a signal of whole units is its first pulse: the next pulse has the other level. -/
theorem takeWhile_signalFrom {b : Bool} {v : Pulse} {s : List Pulse} (hs : WholeUnits s) :
    (signalFrom b (v :: s)).takeWhile (· == b) = List.replicate (v.toNat / 444) b := by
  have hrest : (signalFrom (!b) s).takeWhile (· == b) = [] := by
    cases s with
    | nil => rfl
    | cons u s =>
      rw [signalFrom, ← Nat.succ_pred hs.head_pos.ne', List.replicate_succ]
      cases b <;> rfl
  rw [signalFrom, List.takeWhile_append_of_pos, hrest, List.append_nil]
  intro a ha
  simp [List.eq_of_mem_replicate ha]

/-- R75: a stream of whole units is fixed by its signal, pulse by pulse. -/
theorem signalFrom_injective {b : Bool} {s t : List Pulse} (hs : WholeUnits s) (ht : WholeUnits t)
    (h : signalFrom b s = signalFrom b t) : s = t := by
  induction s generalizing b t with
  | nil =>
    cases t with
    | nil => rfl
    | cons u t => exact absurd h.symm (signalFrom_cons_ne_nil ht)
  | cons v s ih =>
    cases t with
    | nil => exact absurd h (signalFrom_cons_ne_nil hs)
    | cons u t =>
      have hrun := congrArg (List.takeWhile (· == b)) h
      rw [takeWhile_signalFrom hs.tail, takeWhile_signalFrom ht.tail] at hrun
      have hunits : v.toNat / 444 = u.toNat / 444 := by simpa using congrArg List.length hrun
      obtain rfl := pulse_eq_of_units (hs v List.mem_cons_self).2 (ht u List.mem_cons_self).2 hunits
      rw [ih hs.tail ht.tail (List.append_cancel_left h)]

theorem streamSignal_injective {s t : List Pulse} (hs : WholeUnits s) (ht : WholeUnits t)
    (h : Spec.streamSignal s = Spec.streamSignal t) : s = t := by
  rw [streamSignal_eq_signalFrom, streamSignal_eq_signalFrom] at h
  exact signalFrom_injective hs ht h

/-! ## Half-cells and cells -/

/-- The stream that ends with the pulse `last` carries the signal, in whole units (R75, R153). -/
structure Carries (init : List Pulse) (last : Pulse) (signal : List Bool) : Prop where
  wholeUnits : WholeUnits (init ++ [last])
  signal_eq : Spec.streamSignal (init ++ [last]) = signal

/-- The level of a polarity: `true` for mark. -/
def polarityOfLevel (b : Bool) : Polarity := if b then .mark else .space

theorem polarityAt_eq_iff (i : Nat) (b : Bool) : polarityAt i = polarityOfLevel b ↔ decide (i % 2 = 0) = b := by
  unfold polarityAt polarityOfLevel
  cases b <;> simp

/-- The half-cells of a bit: its own level, then the other (R152). -/
theorem rc6Cell_eq (out : List Pulse) (b : Bool) (w : Nat) :
    rc6Cell out b w = rc6Append (rc6Append out (polarityOfLevel b) w) (polarityOfLevel !b) w := by
  cases b <;> rfl

/-- The pulse of `n` units, n being 1 or 2. -/
theorem toNat_units {n : Nat} (hn : n = 1 ∨ n = 2) : (BitVec.ofNat 16 (444 * n)).toNat = 444 * n := by
  obtain rfl | rfl := hn <;> rfl

theorem WholeUnits.concat {s : List Pulse} {v : Pulse} (hs : WholeUnits s) (hpos : 0 < v.toNat)
    (hmod : v.toNat % 444 = 0) : WholeUnits (s ++ [v]) :=
  List.forall_mem_append.mpr ⟨hs, List.forall_mem_singleton.mpr ⟨hpos, hmod⟩⟩

/-- A pulse of `n` units after the stream adds `n` units of the level of its index. -/
theorem Carries.concat {init : List Pulse} {last : Pulse} {signal : List Bool} (h : Carries init last signal) {n : Nat}
    (hn : n = 1 ∨ n = 2) :
    Carries (init ++ [last]) (BitVec.ofNat 16 (444 * n))
      (signal ++ List.replicate n (decide ((init ++ [last]).length % 2 = 0))) := by
  have hv := toNat_units hn
  refine ⟨h.wholeUnits.concat (by omega) (by omega), ?_⟩
  rw [streamSignal_concat, h.signal_eq, hv, Nat.mul_div_cancel_left n (by decide)]

/-- A last pulse widened by `n` units, with room for them, adds `n` units of its own level. -/
theorem Carries.widen {init : List Pulse} {last : Pulse} {signal : List Bool} (h : Carries init last signal) {n : Nat}
    (hn : n = 1 ∨ n = 2) (hroom : last.toNat ≤ 888) :
    Carries init (last + BitVec.ofNat 16 (444 * n)) (signal ++ List.replicate n (decide (init.length % 2 = 0))) := by
  obtain ⟨hinit, hlast⟩ := List.forall_mem_append.mp h.wholeUnits
  obtain ⟨hpos, hmod⟩ := List.forall_mem_singleton.mp hlast
  have hsum : (last + BitVec.ofNat 16 (444 * n)).toNat = last.toNat + 444 * n := by
    rw [BitVec.toNat_add, toNat_units hn, Nat.mod_eq_of_lt (by omega)]
  refine ⟨WholeUnits.concat hinit (by omega) (by omega), ?_⟩
  have hunits : (last.toNat + 444 * n) / 444 = last.toNat / 444 + n := by omega
  rw [streamSignal_concat, hsum, hunits, List.replicate_add, ← List.append_assoc, ← streamSignal_concat, h.signal_eq]

/-- R153: a half-cell of the level the stream does not end at is a pulse of its own. -/
theorem Carries.append_other {init : List Pulse} {last : Pulse} {signal : List Bool} (h : Carries init last signal)
    {b : Bool} (hb : decide (init.length % 2 = 0) ≠ b) {n : Nat} (hn : n = 1 ∨ n = 2) :
    rc6Append (init ++ [last]) (polarityOfLevel b) (444 * n) = init ++ [last] ++ [BitVec.ofNat 16 (444 * n)] ∧
      decide ((init ++ [last]).length % 2 = 0) = b ∧
      Carries (init ++ [last]) (BitVec.ofNat 16 (444 * n)) (signal ++ List.replicate n b) := by
  have hnext : decide ((init ++ [last]).length % 2 = 0) = b := by
    rw [List.length_append, List.length_singleton, decide_even_succ, Bool.eq_not_of_ne hb, Bool.not_not]
  exact ⟨rc6Append_other _ (mt (polarityAt_eq_iff _ _).mp hb), hnext, hnext ▸ h.concat hn⟩

/-- R153: a half-cell of level `b` leaves a stream that ends at level `b`, and adds its units to the signal. -/
theorem Carries.append {init : List Pulse} {last : Pulse} {signal : List Bool} (h : Carries init last signal) (b : Bool)
    {n : Nat} (hn : n = 1 ∨ n = 2) (hroom : last.toNat ≤ 888) :
    ∃ init' last', rc6Append (init ++ [last]) (polarityOfLevel b) (444 * n) = init' ++ [last'] ∧
      decide (init'.length % 2 = 0) = b ∧ Carries init' last' (signal ++ List.replicate n b) := by
  by_cases hlevel : decide (init.length % 2 = 0) = b
  · exact ⟨init, _, rc6Append_same _ ((polarityAt_eq_iff _ _).mpr hlevel), hlevel, hlevel ▸ h.widen hn hroom⟩
  · exact ⟨init ++ [last], _, h.append_other hlevel hn⟩

/-- The two halves of a bit's cell as a signal, `n` units each. -/
def cellSignal (n : Nat) (b : Bool) : List Bool := List.replicate n b ++ List.replicate n (!b)

/-- R152: a cell adds its two halves to the signal, and the second half is a pulse of its own. -/
theorem Carries.cell {init : List Pulse} {last : Pulse} {signal : List Bool} (h : Carries init last signal) (b : Bool)
    {n : Nat} (hn : n = 1 ∨ n = 2) (hroom : last.toNat ≤ 888) :
    ∃ init', rc6Cell (init ++ [last]) b (444 * n) = init' ++ [BitVec.ofNat 16 (444 * n)] ∧
      decide (init'.length % 2 = 0) = !b ∧ Carries init' (BitVec.ofNat 16 (444 * n)) (signal ++ cellSignal n b) := by
  obtain ⟨init₁, last₁, hfirst, hlevel, h₁⟩ := h.append b hn hroom
  obtain ⟨hsecond, hlevel', h₂⟩ := h₁.append_other (b := !b) (by simp [hlevel]) hn
  refine ⟨init₁ ++ [last₁], by rw [rc6Cell_eq, hfirst, hsecond], hlevel', ?_⟩
  rwa [cellSignal, ← List.append_assoc]

/-! ## The frame -/

/-- The width in units of each half of bit `k`'s cell (R75). -/
def halfUnits (k : Nat) : Nat := if k = 16 then 2 else 1

theorem halfUnits_eq (k : Nat) : halfUnits k = 1 ∨ halfUnits k = 2 := by
  unfold halfUnits
  split <;> simp

theorem rc6HalfWidth_eq (k : Nat) : rc6HalfWidth k = 444 * halfUnits k := by
  unfold rc6HalfWidth halfUnits rc6ToggleBit
  split <;> rfl

/-- The cells of bits n-1 down to 0 as a signal. -/
def cellsSignal (data : BitVec 21) : Nat → List Bool
  | 0 => []
  | k + 1 => cellSignal (halfUnits k) (data.getLsbD k) ++ cellsSignal data k

/-- R152: the cells down to bit 0 add their signal, and the stream ends with the second half of bit 0. -/
theorem Carries.cells {data : BitVec 21} {k : Nat} {init : List Pulse} {last : Pulse} {signal : List Bool}
    (h : Carries init last signal) (hroom : last.toNat ≤ 888) :
    ∃ init', rc6Cells data (k + 1) (init ++ [last]) = init' ++ [444#16] ∧
      decide (init'.length % 2 = 0) = !data.getLsbD 0 ∧ Carries init' 444#16 (signal ++ cellsSignal data (k + 1)) := by
  induction k generalizing init last signal with
  | zero =>
    obtain ⟨init', hcell, hlevel, h'⟩ := h.cell (data.getLsbD 0) (halfUnits_eq 0) hroom
    exact ⟨init', hcell, hlevel, h'⟩
  | succ k ih =>
    obtain ⟨init₁, hcell, -, h₁⟩ := h.cell (data.getLsbD (k + 1)) (halfUnits_eq (k + 1)) hroom
    have hroom₁ : (BitVec.ofNat 16 (444 * halfUnits (k + 1))).toNat ≤ 888 := by
      have := halfUnits_eq (k + 1)
      rw [toNat_units this]
      omega
    obtain ⟨init', hcells, hlevel, h'⟩ := ih h₁ hroom₁
    refine ⟨init', ?_, hlevel, ?_⟩
    · rw [rc6Cells, rc6HalfWidth_eq, hcell, hcells]
    · rwa [List.append_assoc] at h'

/-- R75: the leader's signal. -/
theorem carries_leader : Carries [2664#16] 888#16 (List.replicate 6 true ++ List.replicate 2 false) :=
  ⟨by simp [WholeUnits], by decide⟩

/-- R150, R151: the bits sent are those of the 21-bit word from the start bit down. -/
theorem sentBits_eq (f : Rc6Fields) : Spec.sentBits f = (List.range 21).reverse.map (rc6Word f).getLsbD := by
  simp [Spec.sentBits, Spec.msbFirst, List.range_succ, rc6Word]

theorem sentBits_cells (f : Rc6Fields) :
    ((Spec.sentBits f).zipIdx.flatMap fun b =>
      let w := if b.2 = 4 then 2 else 1
      List.replicate w b.1 ++ List.replicate w (!b.1)) = cellsSignal (rc6Word f) 21 := by
  rw [sentBits_eq]
  rfl

theorem rc6Word_getLsbD_zero (f : Rc6Fields) : (rc6Word f).getLsbD 0 = f.info.getLsbD 0 := by
  simp [rc6Word]

/-- R75, R154: the spec's signal of the frame, with the cells of the 21-bit word. -/
theorem frameSignal_eq (f : Rc6Fields) :
    Spec.frameSignal f =
      let all := List.replicate 6 true ++ List.replicate 2 false ++ cellsSignal (rc6Word f) 21
      if (rc6Word f).getLsbD 0 then all.dropLast else all := by
  rw [rc6Word_getLsbD_zero, ← sentBits_cells]
  rfl

/-- R154: the last pulse is kept exactly when it is a mark. -/
theorem rc6DropSpace_concat (init : List Pulse) (v : Pulse) :
    rc6DropSpace (init ++ [v]) = if decide (init.length % 2 = 0) then init ++ [v] else init := by
  unfold rc6DropSpace
  by_cases h : init.length % 2 = 0
  · simp [h, show (init.length + 1) % 2 = 1 by omega]
  · simp [h, show (init.length + 1) % 2 = 0 by omega]

/-- R152, R154: the frame is a stream of whole units that ends on a mark and carries the spec's signal. -/
theorem rc6Frame_carries_frameSignal (f : Rc6Fields) :
    (rc6Frame (rc6Word f)).length % 2 = 1 ∧ WholeUnits (rc6Frame (rc6Word f)) ∧
      Spec.streamSignal (rc6Frame (rc6Word f)) = Spec.frameSignal f := by
  obtain ⟨init, hcells, hlevel, hunits, hsignal⟩ := (carries_leader.cells (data := rc6Word f) (k := 20) (by decide))
  have hframe : rc6Frame (rc6Word f) = rc6DropSpace (init ++ [444#16]) := congrArg rc6DropSpace hcells
  rw [hframe, rc6DropSpace_concat, frameSignal_eq, ← hsignal]
  cases hbit : (rc6Word f).getLsbD 0 <;> rw [hbit] at hlevel
  case false =>
    have heven : init.length % 2 = 0 := by simpa using hlevel
    rw [if_pos (decide_eq_true heven)]
    refine ⟨?_, hunits, rfl⟩
    rw [List.length_append, List.length_singleton]
    omega
  case true =>
    have hodd : init.length % 2 = 1 := by simpa using hlevel
    rw [if_neg (by simp [hodd])]
    refine ⟨hodd, (List.forall_mem_append.mp hunits).1, ?_⟩
    simp [streamSignal_concat]

/-- R76, R155: every operand form answers with the frame of its fields. -/
theorem answers_of_fieldsOf {i : Instr} {f : Rc6Fields} (h : Spec.FieldsOf i f) (s : State) :
    Spec.Answers i s (Spec.okResp (.hex (txFormat (rc6Frame (rc6Word f))))) := by
  obtain ⟨a, rfl, rfl⟩ | ⟨a, b, rfl, rfl⟩ | ⟨a, b, c, rfl, rfl⟩ | ⟨a, b, c, d, rfl, rfl⟩ | ⟨a, rfl, rfl⟩ := h <;> rfl

/-- Settles O38: the frame carries the signal, and a signal of whole units comes from one stream only. -/
theorem rc6EncodeSendsTheSignal : Obligations.Rc6EncodeSendsTheSignal := by
  intro i f s h
  obtain ⟨hodd, hunits, hsignal⟩ := rc6Frame_carries_frameSignal f
  exact ⟨_, answers_of_fieldsOf h s, hodd, hunits, hsignal,
    fun _ _ hG hGsignal => streamSignal_injective hG hunits (hGsignal.trans hsignal.symm)⟩

end Sys2Proof.Machine
end

