-- ==== Sys2Proof/Proofs/Transcoder.lean ====
section
/-! PROOFS. The statements of 40_transcoder.md: the hex strings of pulse streams and back (R90 to R93), the tolerance check
(R94) and the codecs' windows (R95). -/

namespace Sys2Proof.Machine

open Sys2Proof

/-! ## Hex digits -/

/-- What holds of each character of the two alphabets holds of every hex digit (R93). -/
theorem forall_isHexDigit {p : Char → Prop} [DecidablePred p]
    (hp : (Spec.lowerDigits ++ Spec.upperDigits).all (fun c => decide (p c)) = true) : ∀ c, Spec.IsHexDigit c → p c :=
  fun c hc => of_decide_eq_true (List.all_eq_true.mp hp c (List.mem_append.mpr hc))

theorem hexVal_of_isHexDigit : ∀ c, Spec.IsHexDigit c → hexVal c = some (Spec.digitValue c) :=
  forall_isHexDigit (by decide)

theorem digitValue_lt : ∀ c, Spec.IsHexDigit c → Spec.digitValue c < 16 := forall_isHexDigit (by decide)

/-- R92: the digit written for a digit's value is that digit in lower case. -/
theorem hexDigit_digitValue : ∀ c, Spec.IsHexDigit c → hexDigit (BitVec.ofNat 4 (Spec.digitValue c)) = c.toLower :=
  forall_isHexDigit (by decide)

/-- The last character of the two alphabets is `f`. -/
theorem toNat_lt_of_hexVal {c : Char} {n : Nat} (h : hexVal c = some n) : c.toNat < 103 := by
  unfold hexVal at h
  simp only [Char.le_def, UInt32.le_iff_toNat_le] at h
  split_ifs at h with h0 ha hA
  · exact h0.2.trans_lt (by decide)
  · exact ha.2.trans_lt (by decide)
  · exact hA.2.trans_lt (by decide)

/-- R93: up to `f`, only the characters of the two alphabets have a value. -/
theorem mem_alphabets_of_hexVal_isSome :
    ∀ k < 103, (hexVal (Char.ofNat k)).isSome → Char.ofNat k ∈ Spec.lowerDigits ++ Spec.upperDigits := by decide

theorem isHexDigit_of_hexVal {c : Char} {n : Nat} (h : hexVal c = some n) : Spec.IsHexDigit c := by
  have hmem := mem_alphabets_of_hexVal_isSome c.toNat (toNat_lt_of_hexVal h)
  rw [Char.ofNat_toNat, h] at hmem
  exact List.mem_append.mp (hmem rfl)

/-- R93: `HexVal` is the spec's digit value on the spec's digits, and nothing else has a value. -/
theorem hexVal_eq_some_iff (c : Char) (n : Nat) : hexVal c = some n ↔ Spec.IsHexDigit c ∧ Spec.digitValue c = n := by
  constructor
  · intro h
    have hdigit := isHexDigit_of_hexVal h
    exact ⟨hdigit, Option.some.inj ((hexVal_of_isHexDigit _ hdigit).symm.trans h)⟩
  · rintro ⟨hdigit, rfl⟩
    exact hexVal_of_isHexDigit _ hdigit

/-- R93: the digits written are those of the spec's lowercase alphabet, in its order. -/
theorem lowerDigits_getElem?_toNat : ∀ n : BitVec 4, Spec.lowerDigits[n.toNat]? = some (hexDigit n) := by decide

theorem lowerDigits_getElem?_mod (n : Nat) : Spec.lowerDigits[n % 16]? = some (hexDigit (BitVec.ofNat 4 n)) := by
  rw [← lowerDigits_getElem?_toNat, BitVec.toNat_ofNat]

theorem hexDigit_ofNat_congr {n k : Nat} (h : n % 16 = k % 16) :
    hexDigit (BitVec.ofNat 4 n) = hexDigit (BitVec.ofNat 4 k) :=
  congrArg hexDigit (BitVec.eq_of_toNat_eq (by simpa using h))

/-! ## One group -/

/-- R90, R43: the pulse of a group, low byte first and high nibble first. -/
theorem toNat_groupPulse {a b c d : Nat} (ha : a < 16) (hb : b < 16) (hc : c < 16) (hd : d < 16) :
    (groupPulse a b c d).toNat = 256 * (16 * c + d) + (16 * a + b) := by
  have hlo : a * 16 + b < 2 ^ 8 := by omega
  rw [groupPulse, ← Nat.shiftLeft_add_eq_or_of_lt hlo, Nat.shiftLeft_eq, BitVec.toNat_ofNat]
  omega

/-- Four bits of a byte of a pulse, as a quotient of the pulse's value. -/
theorem extractLsb'_nibble (v : Pulse) (i j : Nat) (hj : j + 4 ≤ 8) :
    (v.extractLsb' i 8).extractLsb' j 4 = BitVec.ofNat 4 (v.toNat / 2 ^ (i + j)) := by
  apply BitVec.eq_of_getLsbD_eq
  intro k hk
  rw [BitVec.getLsbD_extractLsb', BitVec.getLsbD_extractLsb', BitVec.getLsbD_ofNat, ← Nat.shiftRight_eq_div_pow,
    Nat.testBit_shiftRight, ← Nat.add_assoc]
  simp [hk, show j + k < 8 by omega, BitVec.getLsbD]

/-- R91: the four digits of a pulse, as quotients of its value. -/
theorem txFormat_cons_ofNat (v : Pulse) (s : List Pulse) :
    txFormat (v :: s) = hexDigit (BitVec.ofNat 4 (v.toNat / 16)) :: hexDigit (BitVec.ofNat 4 v.toNat)
      :: hexDigit (BitVec.ofNat 4 (v.toNat / 4096)) :: hexDigit (BitVec.ofNat 4 (v.toNat / 256)) :: txFormat s := by
  rw [txFormat_cons, extractLsb'_nibble, extractLsb'_nibble, extractLsb'_nibble, extractLsb'_nibble] <;> simp

/-- R92: the four digits written for the pulse of a group are those of the group's values. -/
theorem txFormat_groupPulse_cons {a b c d : Nat} (ha : a < 16) (hb : b < 16) (hc : c < 16) (hd : d < 16)
    (s : List Pulse) :
    txFormat (groupPulse a b c d :: s) = hexDigit (BitVec.ofNat 4 a) :: hexDigit (BitVec.ofNat 4 b)
      :: hexDigit (BitVec.ofNat 4 c) :: hexDigit (BitVec.ofNat 4 d) :: txFormat s := by
  rw [txFormat_cons_ofNat, toNat_groupPulse ha hb hc hd]
  simp only [List.cons.injEq, and_true]
  refine ⟨hexDigit_ofNat_congr ?_, hexDigit_ofNat_congr ?_, hexDigit_ofNat_congr ?_, hexDigit_ofNat_congr ?_⟩ <;> omega

/-- A list cut in groups of four: group g + 1 is group g of the rest. -/
theorem getElem?_group_succ {α : Type} (a b c d : α) (l : List α) (g k : Nat) :
    (a :: b :: c :: d :: l)[4 * (g + 1) + k]? = l[4 * g + k]? := by
  rw [show 4 * (g + 1) + k = 4 * g + k + 1 + 1 + 1 + 1 by omega]
  rfl

/-! ## Strings of groups -/

/-- R90: the string is groups of four hex digits, and the stream holds the pulse of each group. `txParse_eq_ok_iff` ties it
to the model. -/
inductive Groups : List Char → List Pulse → Prop where
  | nil : Groups [] []
  | cons {a b c d : Char} {h : List Char} {out : List Pulse} (ha : Spec.IsHexDigit a) (hb : Spec.IsHexDigit b)
      (hc : Spec.IsHexDigit c) (hd : Spec.IsHexDigit d) (rest : Groups h out) :
      Groups (a :: b :: c :: d :: h)
        (groupPulse (Spec.digitValue a) (Spec.digitValue b) (Spec.digitValue c) (Spec.digitValue d) :: out)

theorem parseGroups_of_groups {h : List Char} {out : List Pulse} (hg : Groups h out) : parseGroups h = .ok out := by
  induction hg with
  | nil => rfl
  | cons ha hb hc hd _ ih =>
    simp only [parseGroups, hexVal_of_isHexDigit _ ha, hexVal_of_isHexDigit _ hb, hexVal_of_isHexDigit _ hc,
      hexVal_of_isHexDigit _ hd, ih]

theorem groups_of_parseGroups {h : List Char} {out : List Pulse} (hout : parseGroups h = .ok out) : Groups h out := by
  fun_induction parseGroups h generalizing out with
  | case1 =>
    obtain rfl := Except.ok.inj hout
    exact .nil
  | case2 a b c d rest va vb vc vd hvd hvc hvb hva tail htail ih =>
    obtain rfl := Except.ok.inj hout
    obtain ⟨ha, rfl⟩ := (hexVal_eq_some_iff a va).mp hva
    obtain ⟨hb, rfl⟩ := (hexVal_eq_some_iff b vb).mp hvb
    obtain ⟨hc, rfl⟩ := (hexVal_eq_some_iff c vc).mp hvc
    obtain ⟨hd, rfl⟩ := (hexVal_eq_some_iff d vd).mp hvd
    exact .cons ha hb hc hd (ih htail)
  | _ => simp at hout

theorem Groups.length_eq {h : List Char} {out : List Pulse} (hg : Groups h out) : h.length = 4 * out.length := by
  induction hg with
  | nil => rfl
  | cons _ _ _ _ _ ih =>
    simp only [List.length_cons, ih]
    omega

/-- R90: `TxParse` accepts exactly the strings of groups, and answers their pulses. -/
theorem txParse_eq_ok_iff (h : List Char) (out : List Pulse) : txParse h = .ok out ↔ Groups h out := by
  constructor
  · intro hout
    unfold txParse at hout
    split at hout
    · simp at hout
    · exact groups_of_parseGroups hout
  · intro hg
    have hlen : h.length % hexGroup = 0 := hg.length_eq ▸ Nat.mul_mod_right 4 out.length
    rw [txParse, if_neg (not_not.mpr hlen), parseGroups_of_groups hg]

/-- Every other string gives FormatError. -/
theorem txParse_eq_format {h : List Char} (hg : ∀ out, ¬ Groups h out) : txParse h = .error .format := by
  cases hp : txParse h with
  | ok out => exact absurd ((txParse_eq_ok_iff h out).mp hp) (hg out)
  | error e => rw [txParse_error hp]

theorem Groups.isHexDigit_of_mem {h : List Char} {out : List Pulse} (hg : Groups h out) :
    ∀ c ∈ h, Spec.IsHexDigit c := by
  induction hg with
  | nil => simp
  | cons ha hb hc hd _ ih => simpa [ha, hb, hc, hd] using ih

/-- R90, R48: whole groups of hex digits are all a string needs. -/
theorem exists_groups : ∀ h : List Char, h.length % 4 = 0 → (∀ c ∈ h, Spec.IsHexDigit c) → ∃ out, Groups h out
  | [], _, _ => ⟨[], .nil⟩
  | a :: b :: c :: d :: h, hlen, hdigits => by
    simp only [List.forall_mem_cons] at hdigits
    obtain ⟨ha, hb, hc, hd, hdigits⟩ := hdigits
    have hlen : h.length % 4 = 0 := by
      simp only [List.length_cons] at hlen
      omega
    obtain ⟨out, hg⟩ := exists_groups h hlen hdigits
    exact ⟨_, .cons ha hb hc hd hg⟩
  | [_], hlen, _ | [_, _], hlen, _ | [_, _, _], hlen, _ => by simp at hlen

/-- R90: the pulse at g is that of the digits at 4g to 4g + 3. -/
theorem Groups.getElem? {h : List Char} {out : List Pulse} (hg : Groups h out) {g : Nat} {a b c d : Char}
    (ha : h[4 * g]? = some a) (hb : h[4 * g + 1]? = some b) (hc : h[4 * g + 2]? = some c)
    (hd : h[4 * g + 3]? = some d) :
    out[g]? = some (groupPulse (Spec.digitValue a) (Spec.digitValue b) (Spec.digitValue c) (Spec.digitValue d)) := by
  induction hg generalizing g with
  | nil => simp at ha
  | cons _ _ _ _ _ ih =>
    cases g with
    | zero =>
      obtain rfl := Option.some.inj ha
      obtain rfl := Option.some.inj hb
      obtain rfl := Option.some.inj hc
      obtain rfl := Option.some.inj hd
      rfl
    | succ g =>
      rw [getElem?_group_succ] at hb hc hd
      exact ih ((getElem?_group_succ _ _ _ _ _ g 0).symm.trans ha) hb hc hd

/-- R92: writing the pulses of a string gives the string in lower case. -/
theorem Groups.txFormat_eq {h : List Char} {out : List Pulse} (hg : Groups h out) :
    txFormat out = h.map Char.toLower := by
  induction hg with
  | nil => rfl
  | cons ha hb hc hd _ ih =>
    rw [txFormat_groupPulse_cons (digitValue_lt _ ha) (digitValue_lt _ hb) (digitValue_lt _ hc) (digitValue_lt _ hd), ih]
    simp only [List.map_cons, hexDigit_digitValue, ha, hb, hc, hd]

/-- R91: the digits at 4g to 4g + 3 are those of the pulse at g. -/
theorem txFormat_getElem? {x : List Pulse} {g : Nat} {v : Pulse} (hv : x[g]? = some v) :
    (txFormat x)[4 * g]? = Spec.lowerDigits[v.toNat / 16 % 16]? ∧
      (txFormat x)[4 * g + 1]? = Spec.lowerDigits[v.toNat % 16]? ∧
      (txFormat x)[4 * g + 2]? = Spec.lowerDigits[v.toNat / 4096 % 16]? ∧
      (txFormat x)[4 * g + 3]? = Spec.lowerDigits[v.toNat / 256 % 16]? := by
  induction x generalizing g with
  | nil => simp at hv
  | cons u x ih =>
    rw [txFormat_cons_ofNat]
    cases g with
    | zero =>
      obtain rfl := Option.some.inj hv
      simp [lowerDigits_getElem?_mod]
    | succ g =>
      simp only [getElem?_group_succ]
      obtain ⟨h0, hrest⟩ := ih hv
      exact ⟨(getElem?_group_succ _ _ _ _ _ g 0).trans h0, hrest⟩

/-! ## The transcoder's statements -/

theorem txParse_txFormat (s : List Pulse) : txParse (txFormat s) = .ok s :=
  (txParse_eq_ok_iff _ _).mpr (groups_of_parseGroups (parseGroups_txFormat s))

theorem txFormat_injective : Function.Injective txFormat := by
  intro s t h
  have := congrArg txParse h
  rwa [txParse_txFormat, txParse_txFormat, Except.ok.injEq] at this

/-- Settles O23: a string that parses is groups of digits, which are written back in lower case; `AAAA` and `aaaa` parse to
one stream. -/
theorem transcoderLaws : Obligations.TranscoderLaws := by
  refine ⟨txParse_txFormat, fun h x hx => ((txParse_eq_ok_iff h x).mp hx).txFormat_eq, ?_, txFormat_injective⟩
  exact ⟨['A', 'A', 'A', 'A'], ['a', 'a', 'a', 'a'], [0xAAAA#16], by decide, rfl, rfl⟩

/-- R90: the response of TX.PARSE is that of the string's parse. -/
theorem answers_txParseHex {h : List Char} {x : Except Err (List Pulse)} (hx : txParse h = x) (s : State) :
    Spec.Answers (.txParseHex h) s (responseOf (x.map Result.pulses)) :=
  hx ▸ answers_instrResponse (.txParseHex h) s

/-- Settles O21: the string is groups of digits, or it is not. -/
theorem txParseReadsGroups : Obligations.TxParseReadsGroups := by
  refine fun h s => ⟨encode_header _, fun hlen hdigits => ?_, fun hbad => ?_⟩
  · obtain ⟨out, hg⟩ := exists_groups h hlen hdigits
    refine ⟨out, answers_txParseHex ((txParse_eq_ok_iff h out).mpr hg) s, ?_, fun g a b c d ha hb hc hd => ?_⟩
    · rw [hg.length_eq, Nat.mul_div_cancel_left _ (by decide)]
    · rw [hg.getElem? ha hb hc hd]
      have digit {k : Nat} {c : Char} (hc : h[k]? = some c) :=
        digitValue_lt c (hg.isHexDigit_of_mem c (List.mem_of_getElem? hc))
      rw [← toNat_groupPulse (digit ha) (digit hb) (digit hc) (digit hd), BitVec.ofNat_toNat, BitVec.setWidth_eq]
  · refine answers_txParseHex (txParse_eq_format fun out hg => ?_) s
    obtain hlen | ⟨c, hc, hdigit⟩ := hbad
    · exact hlen (hg.length_eq ▸ Nat.mul_mod_right 4 out.length)
    · exact hdigit (hg.isHexDigit_of_mem c hc)

/-- Settles O22: TX.FORMAT answers with the string of four digits per pulse. -/
theorem txFormatWritesGroups : Obligations.TxFormatWritesGroups := by
  refine fun x s => ⟨encode_header _, txFormat x, answers_instrResponse _ s, txFormat_length x, fun g v hv => ?_⟩
  have htop : v.toNat / 4096 % 16 = v.toNat / 4096 := by
    have := v.isLt
    omega
  exact htop ▸ txFormat_getElem? hv

/-! ## The tolerance check -/

/-- R94: with tolerance 0 only the nominal is accepted. -/
theorem tol_zero_tolerance {m n q : Nat} (hq : 0 < q) : tol m n 0 q = true ↔ m = n := by
  rw [tol_iff (Nat.zero_le q), Nat.sub_zero, Nat.add_zero, Nat.mul_le_mul_right_iff hq, Nat.mul_le_mul_right_iff hq]
  omega

/-- R94: around a nominal of 0 only 0 is accepted. -/
theorem tol_zero_nominal {m p q : Nat} (hq : 0 < q) : tol m 0 p q = true ↔ m = 0 := by
  rw [tol_iff_int, Nat.cast_zero, zero_mul, zero_mul]
  norm_cast
  simp [hq.ne']

/-- R94: with a tolerance above 1 the lower end is not positive. -/
theorem tol_iff_upper {m n p q : Nat} (h : q < p) :
    tol m n p q = true ↔ (m : ℤ) * q ≤ (n : ℤ) * ((q : ℤ) + p) := by
  have hlower : (n : ℤ) * ((q : ℤ) - p) ≤ m * q :=
    (mul_nonpos_of_nonneg_of_nonpos (by positivity) (by omega)).trans (by positivity)
  rw [tol_iff_int, and_iff_right hlower]

theorem txTol_of_ne_zero {m n p q : BitVec 16} (hq : q ≠ 0#16) :
    txTol m n p q = .ok (tol m.toNat n.toNat p.toNat q.toNat) := if_neg hq

/-- Settles O25: the window, with its three special cases. -/
theorem txTolAnswersWindow : Obligations.TxTolAnswersWindow := by
  refine fun m n p q s => ⟨encode_header _, ?_, fun hq => ?_⟩
  · rintro rfl
    exact answers_instrResponse _ s
  · have hpos : 0 < q.toNat := Nat.pos_of_ne_zero (mt (BitVec.toNat_inj (y := 0#16)).mp hq)
    have h := answers_instrResponse (.txTolTol m n p q) s
    rw [instrResponse, txTol_of_ne_zero hq] at h
    refine ⟨_, h, tol_iff_int _ _ _ _, ?_, ?_, tol_iff_upper⟩
    · rintro rfl
      exact (tol_zero_tolerance hpos).trans BitVec.toNat_inj
    · rintro rfl
      exact (tol_zero_nominal hpos).trans (BitVec.toNat_inj (y := 0#16))

/-- Settles O26: the NEC windows are those of `Laws`, and the RC6 ones follow from the window in the natural numbers. -/
theorem codecWindowsAreTheseIntervals : Obligations.CodecWindowsAreTheseIntervals := by
  refine fun v => ⟨necWindow_leadMark v, necWindow_leadGap v, necWindow_bitGap v, necWindow_repeatGap v, ?_, ?_,
    inWin_iff v _ _, inWin_iff v _ _⟩
  · rw [tol_iff (by decide), Spec.Within]
    omega
  · rw [tol_iff (by decide), Spec.Within]
    omega

end Sys2Proof.Machine
end

