-- ==== Sys2Proof/Proofs/Nec.lean ====
section
/-! PROOFS. The statements of 41_nec.md: the decoder (R110 to R116), the encoder's INT form (R122), the repeat code (R125,
R126), the round trip (R127) and the two kinds of frames (R128). -/

namespace Sys2Proof.Machine

open Sys2Proof

/-! ## HEX forms -/

/-- R90: a string that is not whole groups of hex digits. -/
theorem txParse_of_malformed {h : List Char} (hbad : h.length % 4 ≠ 0 ∨ ∃ c ∈ h, ¬ Spec.IsHexDigit c) :
    txParse h = .error .format := by
  refine txParse_eq_format fun out hg => ?_
  obtain hlen | ⟨c, hc, hdigit⟩ := hbad
  · exact hlen (hg.length_eq ▸ Nat.mul_mod_right 4 out.length)
  · exact hdigit (hg.isHexDigit_of_mem c hc)

theorem exists_txParse_eq_ok {h : List Char} (hlen : h.length % 4 = 0) (hdigits : ∀ c ∈ h, Spec.IsHexDigit c) :
    ∃ x, txParse h = .ok x :=
  (exists_groups h hlen hdigits).imp fun x hg => (txParse_eq_ok_iff h x).mpr hg

/-- Instructions with the same response do the same: a response is all that an instruction gives. -/
theorem exec_congr {i j : Instr} {s : State} (h : instrResponse s.params i = instrResponse s.params j) :
    exec i s = exec j s := by
  rw [exec_eq, exec_eq, h]

section
variable {h : List Char} {x : List Pulse} (hx : txParse h = .ok x)
include hx

/-- R116: on a string that parses, the HEX form of NEC.DEC answers as the PULSES form on the stream. -/
theorem instrResponse_necDecHex (p : Params) : instrResponse p (.necDecHex h) = instrResponse p (.necDecPulses x) := by
  rw [instrResponse, hx]
  rfl

/-- R148: the same for RC6.DEC. -/
theorem instrResponse_rc6DecHex (p : Params) : instrResponse p (.rc6DecHex h) = instrResponse p (.rc6DecPulses x) := by
  rw [instrResponse, hx]
  rfl

/-- R126: the same for NEC.REP. -/
theorem instrResponse_necRepHex (p : Params) : instrResponse p (.necRepHex h) = instrResponse p (.necRepPulses x) := by
  rw [instrResponse, hx]
  rfl

end

section
variable {h : List Char} (hx : txParse h = .error .format)
include hx

theorem instrResponse_necDecHex_format (p : Params) : instrResponse p (.necDecHex h) = errResponse .format := by
  rw [instrResponse, hx]
  rfl

theorem instrResponse_rc6DecHex_format (p : Params) : instrResponse p (.rc6DecHex h) = errResponse .format := by
  rw [instrResponse, hx]
  rfl

/-- R126: a string that does not parse is no repeat code, and no error. -/
theorem instrResponse_necRepHex_format (p : Params) : instrResponse p (.necRepHex h) = okResponse (.bit false) := by
  rw [instrResponse, hx]

end

/-- An instruction answers with what its response is known to be. -/
theorem answers_of_instrResponse_eq {i : Instr} {s : State} {x : Response} (h : instrResponse s.params i = x) :
    Spec.Answers i s x :=
  h ▸ answers_instrResponse i s

/-- Settles O29: the string parses or it does not, and both decoders begin with that. -/
theorem decodersParseHexFirst : Obligations.DecodersParseHexFirst := by
  refine fun h s => ⟨fun hbad => ?_, fun hlen hdigits => ?_⟩
  · have hx := txParse_of_malformed hbad
    exact ⟨answers_of_instrResponse_eq (instrResponse_necDecHex_format hx _),
      answers_of_instrResponse_eq (instrResponse_rc6DecHex_format hx _)⟩
  · obtain ⟨x, hx⟩ := exists_txParse_eq_ok hlen hdigits
    exact ⟨x, answers_txParseHex hx s, exec_congr (instrResponse_necDecHex hx _),
      exec_congr (instrResponse_rc6DecHex hx _)⟩

/-- R115, R116: NEC.DEC answers with the decoding of the stream, whichever form the stream came in. -/
theorem answers_of_reads_necDec {i : Instr} {x : List Pulse} (h : Spec.Reads .necDecPulses .necDecHex i x) (s : State) :
    Spec.Answers i s (responseOf ((necDecode x).map Result.payload)) := by
  obtain rfl | ⟨h, rfl, hx⟩ := h
  · exact answers_instrResponse (.necDecPulses x) s
  · exact answers_of_instrResponse_eq (instrResponse_necDecHex hx _)

/-! ## The header -/

/-- A header check of a pulse that is there: it passes, or names that pulse. -/
theorem checkPulse_of_getElem? {s : List Pulse} {i : Nat} {v : Pulse} (h : s[i]? = some v) (w : Pulse → Bool)
    (f : TimingField) : checkPulse s i w f = if w v then .ok () else .error (.timing f v) := by
  rw [checkPulse, pulseAt, h]

/-- R110: the three checks, in index order, on a stream that has the three pulses. -/
theorem necHeader_cons (a b c : Pulse) (rest : List Pulse) :
    necHeader (a :: b :: c :: rest) =
      if necWindow necLeadMark a then
        if necWindow necLeadGap b then
          if necWindow necBitGap c then .ok () else .error (.timing .necBitGap c)
        else .error (.timing .necLeadGap b)
      else .error (.timing .necLeadMark a) := by
  rw [necHeader, checkPulse_of_getElem? (v := a) rfl, checkPulse_of_getElem? (v := b) rfl,
    checkPulse_of_getElem? (v := c) rfl]
  cases necWindow necLeadMark a
  · rfl
  · cases necWindow necLeadGap b <;> rfl

section
variable {a b c : Pulse} (rest : List Pulse)

theorem necHeader_of_within (ha : Spec.Within a 6750 11250) (hb : Spec.Within b 3375 5625) (hc : Spec.Within c 422 702) :
    necHeader (a :: b :: c :: rest) = .ok () := by
  rw [necHeader_cons, if_pos ((necWindow_leadMark a).mpr ha), if_pos ((necWindow_leadGap b).mpr hb),
    if_pos ((necWindow_bitGap c).mpr hc)]

/-- A header of three pulses that fails records one of them. -/
theorem necHeader_of_not_within
    (h : ¬ (Spec.Within a 6750 11250 ∧ Spec.Within b 3375 5625 ∧ Spec.Within c 422 702)) :
    ∃ f, ∃ v ∈ [a, b, c], necHeader (a :: b :: c :: rest) = .error (.timing f v) := by
  rw [necHeader_cons]
  split
  · split
    · split
      · exact absurd ⟨(necWindow_leadMark a).mp ‹_›, (necWindow_leadGap b).mp ‹_›, (necWindow_bitGap c).mp ‹_›⟩ h
      · exact ⟨_, c, by simp, rfl⟩
    · exact ⟨_, b, by simp, rfl⟩
  · exact ⟨_, a, by simp, rfl⟩

end

/-! ## The data bits -/

/-- R113: one data bit enters the accumulator at the top, and the others move down by one. -/
theorem getLsbD_shiftIn (acc : BitVec 32) (b : Bool) {j : Nat} (hj : j < 32) :
    (acc >>> 1 ||| (BitVec.ofBool b).setWidth 32 <<< 31).getLsbD j = if j + 1 < 32 then acc.getLsbD (j + 1) else b := by
  by_cases htop : j + 1 < 32
  · simp [htop, show j < 31 by omega, Nat.add_comm 1 j]
  · obtain rfl : j = 31 := by omega
    simp

/-- R112: data bit `k` of a stream, by the pulse at 3 + 2k. -/
def dataBit (s : List Pulse) (k : Nat) : Bool := necBit (s[3 + 2 * k]?.getD 0#16)

/-- R112, R113: after `n` data bits from bit `k` on, the top `n` bits of the accumulator are these, the first of them
lowest. -/
theorem necAccumulate_of_length {s : List Pulse} {n k : Nat} (acc : BitVec 32) (hlen : 2 * (k + n) + 1 < s.length)
    (hn : n ≤ 32) :
    ∃ acc', necAccumulate s n k acc = .ok acc' ∧
      ∀ j < 32, acc'.getLsbD j = if j + n < 32 then acc.getLsbD (j + n) else dataBit s (k + (j + n - 32)) := by
  induction n generalizing k acc with
  | zero => exact ⟨acc, rfl, fun j hj => by simp [hj]⟩
  | succ n ih =>
    have hk : 3 + 2 * k < s.length := by omega
    obtain ⟨acc', hacc, hbits⟩ :=
      ih (k := k + 1) (acc >>> 1 ||| (BitVec.ofBool (necBit s[3 + 2 * k])).setWidth 32 <<< 31) (by omega) (by omega)
    refine ⟨acc', ?_, fun j hj => ?_⟩
    · rw [necAccumulate, pulseAt_of_lt hk]
      exact hacc
    · rw [hbits j hj]
      by_cases hold : j + n < 32
      · rw [if_pos hold, getLsbD_shiftIn _ _ hold]
        by_cases hold' : j + n + 1 < 32
        · simp [hold', ← Nat.add_assoc]
        · simp [dataBit, ← Nat.add_assoc, hold', hk, show j + n + 1 - 32 = 0 by omega]
      · rw [if_neg hold, if_neg (by omega)]
        congr 1
        omega

/-- R44: the bits of a payload, by byte and bit of the byte. -/
theorem payloadBit_eq (p : NecPayload) (j : Nat) {r : Nat} (hr : r < 8) :
    Spec.payloadBit p (8 * j + r) = (([p.b0, p.b1, p.b2, p.b3])[j]?.getD 0#8).getLsbD r := by
  rw [Spec.payloadBit, show (8 * j + r) / 8 = j by omega, show (8 * j + r) % 8 = r by omega]

/-- R44, R113: the four bytes of the accumulator hold its bits in order. -/
theorem payloadBit_necBytesOf (acc : BitVec 32) {k : Nat} (hk : k < 32) :
    Spec.payloadBit (necBytesOf acc) k = acc.getLsbD k := by
  obtain ⟨j, r, hj, hr, rfl⟩ : ∃ j r, j < 4 ∧ r < 8 ∧ k = 8 * j + r := ⟨k / 8, k % 8, by omega, by omega, by omega⟩
  rw [payloadBit_eq _ j hr]
  interval_cases j <;> simp [necBytesOf, hr]

/-! ## The decoder -/

theorem necDecode_of_header_error {x : List Pulse} {e : Err} (h : necHeader x = .error e) : necDecode x = .error e := by
  rw [necDecode, h]
  rfl

/-- R111: the length is checked after the header. -/
theorem necDecode_of_short {x : List Pulse} (h : necHeader x = .ok ()) (hlen : x.length < 67) :
    necDecode x = .error (.range x.length) := by
  rw [necDecode, h]
  exact if_pos hlen

/-- R112 to R114: after a good header, 67 pulses are enough, and bit k of the payload is data bit k. -/
theorem necDecode_of_header {x : List Pulse} (h : necHeader x = .ok ()) (hlen : 67 ≤ x.length) :
    ∃ p, necDecode x = .ok p ∧ ∀ k < 32, Spec.payloadBit p k = dataBit x k := by
  obtain ⟨acc, hacc, hbits⟩ := necAccumulate_of_length (s := x) (n := 32) (k := 0) 0#32 (by omega) (Nat.le_refl _)
  refine ⟨necBytesOf acc, ?_, fun k hk => ?_⟩
  · rw [necDecode, h]
    refine (if_neg (Nat.not_lt.mpr hlen)).trans ?_
    rw [hacc]
    rfl
  · rw [payloadBit_necBytesOf acc hk, hbits k hk]
    simp

/-- Settles O27: `dataBit` is the comparison with 1081. -/
theorem necDecodeReadsThirtyTwoBits : Obligations.NecDecodeReadsThirtyTwoBits := by
  rintro i x a b c rest s hi rfl ha hb hc hlen
  obtain ⟨p, hp, hbits⟩ := necDecode_of_header (necHeader_of_within rest ha hb hc) hlen
  refine ⟨p, ?_, hbits⟩
  have h := answers_of_reads_necDec hi s
  rwa [hp] at h

/-! ## The round trip -/

/-- A payload is its 32 bits. -/
theorem NecPayload.eq_of_payloadBit {p q : NecPayload} (h : ∀ k < 32, Spec.payloadBit p k = Spec.payloadBit q k) :
    p = q := by
  have hbyte (j : Nat) (hj : j < 4) :
      ([p.b0, p.b1, p.b2, p.b3])[j]?.getD 0#8 = ([q.b0, q.b1, q.b2, q.b3])[j]?.getD 0#8 := by
    apply BitVec.eq_of_getLsbD_eq
    intro r hr
    rw [← payloadBit_eq p j hr, ← payloadBit_eq q j hr]
    exact h (8 * j + r) (by omega)
  have h0 : p.b0 = q.b0 := hbyte 0 (by decide)
  have h1 : p.b1 = q.b1 := hbyte 1 (by decide)
  have h2 : p.b2 = q.b2 := hbyte 2 (by decide)
  have h3 : p.b3 = q.b3 := hbyte 3 (by decide)
  cases p; cases q
  cases h0; cases h1; cases h2; cases h3
  rfl

/-- R69: the leader and the first bit-cell gap of a frame are the nominal ones, so its header is good. -/
theorem necHeader_necFrame (p : NecPayload) : necHeader (necFrame p) = .ok () := by
  obtain ⟨rest, hframe⟩ : ∃ rest, necFrame p = 9000#16 :: 4500#16 :: 562#16 :: rest := ⟨_, rfl⟩
  rw [hframe]
  exact necHeader_of_within rest (by simp [Spec.Within]) (by simp [Spec.Within]) (by simp [Spec.Within])

/-- R112, R121: the two data durations lie on the two sides of the threshold, so a data bit reads back. -/
theorem dataBit_necFrame (p : NecPayload) {k : Nat} (hk : k < 32) : dataBit (necFrame p) k = Spec.payloadBit p k := by
  rw [dataBit, (necFrame_cell p k hk).2, getLsbD_necWord p hk]
  cases Spec.payloadBit p k <;> rfl

/-- R127: the decoder reads back each of the 32 bits, which are the payload. -/
theorem necDecode_necFrame (p : NecPayload) : necDecode (necFrame p) = .ok p := by
  obtain ⟨q, hq, hbits⟩ := necDecode_of_header (necHeader_necFrame p) (necFrame_length p).ge
  rw [hq, NecPayload.eq_of_payloadBit fun k hk => (hbits k hk).trans (dataBit_necFrame p hk)]

/-- Settles O33: the string written parses to the frame, and the frame decodes to the payload. -/
theorem necRoundTrip : Obligations.NecRoundTrip := by
  intro x p s hx
  have henc := answers_necEncBytes x s
  have hdec := answers_of_reads_necDec (.inr ⟨_, rfl, txParse_txFormat (necFrame p)⟩) s
  rw [necNormalize_of_normalized hx] at henc
  rw [necDecode_necFrame] at hdec
  exact ⟨txFormat (necFrame p), henc, hdec⟩

/-! ## The encoder's INT form -/

/-- R122: where the parameter is given, NEC.ENC INT is NEC.ENC BYTES on its bytes, or its error. -/
theorem instrResponse_necEncInt_given {p : Params} (hp : p.necIntGiven = true) (v : Field) :
    instrResponse p (.necEncInt v) =
      match Config.necIntToBytes v with
      | .ok x => instrResponse p (.necEncBytes x)
      | .error e => errResponse e := by
  rw [instrResponse, if_pos hp]
  cases Config.necIntToBytes v <;> rfl

/-- Settles O31: the response is the parameter's, by the two cases of the parameter's answer. -/
theorem necEncodeIntFollowsParameter : Obligations.NecEncodeIntFollowsParameter := by
  refine fun v s => ⟨fun hp => ?_, fun hp => ?_⟩
  · refine answers_of_instrResponse_eq ?_
    rw [instrResponse, hp]
    rfl
  · have hv := instrResponse_necEncInt_given hp v
    refine ⟨_, answers_instrResponse _ s, fun x hx => ?_, fun e he => ?_⟩
    · rw [hv, hx]
      exact answers_instrResponse _ s
    · rw [hv, he]

/-! ## Repeat codes -/

/-- R125: three pulses, each in its window. -/
theorem necIsRepeat_iff (x : List Pulse) :
    necIsRepeat x = true ↔
      ∃ u v w, x = [u, v, w] ∧ Spec.Within u 6750 11250 ∧ Spec.Within v 1688 2812 ∧ Spec.Within w 422 702 := by
  constructor
  · intro h
    unfold necIsRepeat at h
    split at h
    · rename_i u v w
      rw [Bool.and_eq_true, Bool.and_eq_true, necWindow_leadMark, necWindow_repeatGap, necWindow_bitGap, and_assoc] at h
      exact ⟨u, v, w, rfl, h⟩
    · cases h
  · rintro ⟨u, v, w, rfl, hu, hv, hw⟩
    rw [necIsRepeat, (necWindow_leadMark u).mpr hu, (necWindow_repeatGap v).mpr hv, (necWindow_bitGap w).mpr hw]
    rfl

/-- Settles O32: the answer on a stream is `necIsRepeat`, and a string answers as its stream, or 0. -/
theorem necRepeatClassifies : Obligations.NecRepeatClassifies := by
  refine fun x h s => ⟨encode_header _, encode_header _, ?_, fun hbad => ?_, fun hlen hdigits => ?_⟩
  · exact ⟨_, answers_instrResponse _ s, necIsRepeat_iff x⟩
  · exact answers_of_instrResponse_eq (instrResponse_necRepHex_format (txParse_of_malformed hbad) _)
  · obtain ⟨y, hy⟩ := exists_txParse_eq_ok hlen hdigits
    exact ⟨y, answers_txParseHex hy s, necIsRepeat y, answers_of_instrResponse_eq (instrResponse_necRepHex hy _),
      answers_instrResponse _ s⟩

/-- R128: a frame has 67 pulses, and a repeat code has 3. -/
theorem necIsRepeat_necFrame (p : NecPayload) : necIsRepeat (necFrame p) = false := by
  refine Bool.eq_false_iff.mpr fun h => ?_
  obtain ⟨u, v, w, hframe, -⟩ := (necIsRepeat_iff _).mp h
  have hlen := necFrame_length p
  rw [hframe] at hlen
  simp at hlen

/-- Settles O34: three pulses are too few to decode after a good header, and a bad header records one of them. -/
theorem necFramesAndRepeatCodesAreDisjoint : Obligations.NecFramesAndRepeatCodesAreDisjoint := by
  refine ⟨fun p s => answers_of_instrResponse_eq ?_, fun a b c s => ⟨?_, fun h => ?_⟩⟩
  · rw [instrResponse, necIsRepeat_necFrame]
    rfl
  · rintro ⟨ha, hb, hc⟩
    refine answers_of_instrResponse_eq ?_
    rw [instrResponse, necDecode_of_short (necHeader_of_within [] ha hb hc) (by simp)]
    rfl
  · obtain ⟨f, v, hv, hheader⟩ := necHeader_of_not_within [] h
    refine ⟨timingFieldCode f, v, hv, answers_of_instrResponse_eq ?_⟩
    rw [instrResponse, necDecode_of_header_error hheader]
    rfl

end Sys2Proof.Machine
end

