-- ==== Sys2Proof/Proofs/Rc6.lean ====
section
/-! PROOFS. The statements of 42_rc6.md: the decoder's walk (R141 to R149), the encoder's operand forms (R150), the
frame's length and pulses (R153, R155, R156), the round trip (R157) and the frames of the other codec (R158). -/

namespace Sys2Proof.Machine

open Sys2Proof

/-! ## The response of RC6.DEC -/

/-- An instruction has one answer. -/
theorem instrResponse_eq_of_answers {i : Instr} {s : State} {x : Response} (h : Spec.Answers i s x) :
    instrResponse s.params i = x := by
  rw [Spec.Answers, exec_eq] at h
  simpa [State.deliver] using h

/-- R147, R148: RC6.DEC answers with the decoding of the stream, whichever form the stream came in. -/
theorem instrResponse_of_reads_rc6Dec {i : Instr} {x : List Pulse} (h : Spec.Reads .rc6DecPulses .rc6DecHex i x)
    (p : Params) : instrResponse p i = responseOf ((rc6Decode x).map Result.record) := by
  obtain rfl | ⟨h, rfl, hx⟩ := h
  · rfl
  · exact instrResponse_rc6DecHex hx p

/-- So it answers with a record exactly when the decoding is that record. -/
theorem answers_rc6Dec_record_iff {i : Instr} {x : List Pulse} (h : Spec.Reads .rc6DecPulses .rc6DecHex i x) (s : State)
    (r : Rc6Record) : Spec.Answers i s (Spec.okResp (.record r)) ↔ rc6Decode x = .ok r := by
  constructor
  · intro hr
    have hresult := congrArg Response.result (instrResponse_eq_of_answers hr)
    rw [instrResponse_of_reads_rc6Dec h] at hresult
    cases hx : rc6Decode x <;> rw [hx] at hresult <;> cases hresult
    rfl
  · intro hx
    refine answers_of_instrResponse_eq ?_
    rw [instrResponse_of_reads_rc6Dec h, hx]
    rfl

/-- An error of the decoding is the answer. -/
theorem answers_rc6Dec_error {i : Instr} {x : List Pulse} (h : Spec.Reads .rc6DecPulses .rc6DecHex i x) (s : State)
    {e : Err} (hx : rc6Decode x = .error e) : Spec.Answers i s (errResponse e) := by
  refine answers_of_instrResponse_eq ?_
  rw [instrResponse_of_reads_rc6Dec h, hx]
  rfl

/-! ## The leader -/

/-- R142: the two checks, in index order, on a stream that has the two pulses. -/
theorem rc6Header_cons (a b : Pulse) (rest : List Pulse) :
    rc6Header (a :: b :: rest) =
      if inWin a rc6LeadMarkMin rc6LeadMarkMax then
        if inWin b rc6LeadGapMin rc6LeadGapMax then .ok () else .error (.timing .rc6LeadGap b)
      else .error (.timing .rc6LeadMark a) := by
  rw [rc6Header, checkPulse_of_getElem? (v := a) rfl, checkPulse_of_getElem? (v := b) rfl]
  cases inWin a rc6LeadMarkMin rc6LeadMarkMax <;> rfl

theorem rc6Header_of_within {a b : Pulse} (rest : List Pulse) (ha : Spec.Within a 2442 2886)
    (hb : Spec.Within b 666 1110) : rc6Header (a :: b :: rest) = .ok () := by
  rw [rc6Header_cons, (inWin_iff a rc6LeadMarkMin rc6LeadMarkMax).mpr ha,
    (inWin_iff b rc6LeadGapMin rc6LeadGapMax).mpr hb]
  rfl

theorem rc6Decode_of_header_error {x : List Pulse} {e : Err} (h : rc6Header (rc6Padded x) = .error e) :
    rc6Decode x = .error e := by
  rw [rc6Decode, h]
  rfl

/-- R147: after a good leader the decoder is the walk. -/
theorem rc6Decode_of_header {x : List Pulse} (h : rc6Header (rc6Padded x) = .ok ()) :
    rc6Decode x = (rc6Walk (rc6Padded x) 21 2 0#21).map rc6Unpack := by
  rw [rc6Decode, h]
  change (rc6Walk (rc6Padded x) 21 2 0#21 >>= fun acc => .ok (rc6Unpack acc)) = _
  cases rc6Walk (rc6Padded x) 21 2 0#21 <;> rfl

/-! ## The walk -/

/-- The accumulator after the first `n` steps of a walk over the positions `P` (R144, R145). -/
def walkWord (P : Nat → Nat) : Nat → BitVec 21
  | 0 => 0#21
  | n + 1 => rc6Shift (walkWord P n) (P n)

/-- R145: a step shifts the bits up and the position's parity in. -/
theorem getLsbD_rc6Shift (acc : BitVec 21) (pos : Nat) {j : Nat} (hj : j < 21) :
    (rc6Shift acc pos).getLsbD j = if j = 0 then decide (pos % 2 = 1) else acc.getLsbD (j - 1) := by
  have hparity : (BitVec.ofNat 21 (pos % 2)).getLsbD j = decide (j = 0 ∧ pos % 2 = 1) := by
    rcases Nat.mod_two_eq_zero_or_one pos with h | h <;> simp [h, hj]
  rw [rc6Shift, BitVec.getLsbD_or, BitVec.getLsbD_shiftLeft, hparity]
  cases j <;> simp [hj]

/-- R144, R145: the last step's parity is bit 0, and bit `j` is the parity of the step `j` steps before. -/
theorem getLsbD_walkWord (P : Nat → Nat) {n j : Nat} (hj : j < n) (hn : n ≤ 21) :
    (walkWord P n).getLsbD j = decide (P (n - 1 - j) % 2 = 1) := by
  induction n generalizing j with
  | zero => omega
  | succ n ih =>
    rw [walkWord, getLsbD_rc6Shift _ _ (by omega)]
    cases j with
    | zero => simp
    | succ j => simp [ih (j := j) (by omega) (by omega), show n - 1 - j = n - (j + 1) by omega]

/-- R143: the model's next position is the spec's, where there is a pulse to read. -/
theorem rc6Advance_eq_nextPos {s : List Pulse} {pos : Nat} (h : pos < s.length) :
    rc6Advance pos s[pos] = Spec.nextPos s pos := by
  rw [Spec.nextPos, List.getElem?_eq_getElem h]
  rfl

/-- R147: a step that reads its pulse. -/
theorem rc6Walk_of_lt {s : List Pulse} {m pos : Nat} {acc : BitVec 21} (h : pos < s.length) :
    rc6Walk s (m + 1) pos acc = rc6Walk s m (Spec.nextPos s pos) (rc6Shift acc pos) := by
  rw [rc6Walk, pulseAt_of_lt h, ← rc6Advance_eq_nextPos h]
  rfl

/-- R147: a step past the end. -/
theorem rc6Walk_of_ge {s : List Pulse} {m pos : Nat} {acc : BitVec 21} (h : s.length ≤ pos) :
    rc6Walk s (m + 1) pos acc = .error (.range s.length) := by
  rw [rc6Walk, pulseAt_of_ge h]
  rfl

theorem nextPos_bounds (s : List Pulse) (pos : Nat) :
    pos + 1 ≤ Spec.nextPos s pos ∧ Spec.nextPos s pos ≤ pos + 2 :=
  rc6Advance_bounds pos (s[pos]?.getD 0#16)

/-- `P` are the positions of the walk over `s`: 2, and on by R143 for 20 steps. -/
structure IsWalk (s : List Pulse) (P : Nat → Nat) : Prop where
  start : P 0 = 2
  next : ∀ n < 20, P (n + 1) = Spec.nextPos s (P n)

section
variable {s : List Pulse} {P : Nat → Nat} (hP : IsWalk s P)
include hP

theorem IsWalk.step_bounds {n : Nat} (hn : n < 20) : P n + 1 ≤ P (n + 1) ∧ P (n + 1) ≤ P n + 2 := by
  rw [hP.next n hn]
  exact nextPos_bounds s (P n)

/-- R149: each step advances by 1 or 2, so n steps by n to 2n. -/
theorem IsWalk.bounds {n : Nat} (hn : n ≤ 20) : n + 2 ≤ P n ∧ P n ≤ 2 * n + 2 := by
  induction n with
  | zero => simp [hP.start]
  | succ n ih =>
    have := hP.step_bounds (n := n) (by omega)
    have := ih (by omega)
    omega

/-- R149: the positions grow, so the last one decides whether all are inside the stream. -/
theorem IsWalk.le_last {n m : Nat} (hn : n + m = 20) : P n ≤ P 20 := by
  induction m generalizing n with
  | zero => rw [show n = 20 from hn]
  | succ m ih =>
    have := hP.step_bounds (n := n) (by omega)
    have := ih (n := n + 1) (by omega)
    omega

/-- R147: `m + 1` steps from step `n` on to the last one succeed exactly when the last position is inside the stream. -/
theorem IsWalk.rc6Walk_eq {n m : Nat} (hn : n + m = 20) :
    rc6Walk s (m + 1) (P n) (walkWord P n) =
      if P 20 < s.length then .ok (walkWord P 21) else .error (.range s.length) := by
  induction m generalizing n with
  | zero =>
    obtain rfl : n = 20 := hn
    by_cases hread : P 20 < s.length
    · rw [if_pos hread, rc6Walk_of_lt hread]
      rfl
    · rw [if_neg hread, rc6Walk_of_ge (by omega)]
  | succ m ih =>
    by_cases hread : P n < s.length
    · rw [rc6Walk_of_lt hread, ← hP.next n (by omega)]
      exact ih (by omega)
    · have := hP.le_last hn
      rw [rc6Walk_of_ge (by omega), if_neg (by omega)]

end

/-- R147: with the leader in its windows, the walk's last position decides, and its parities are the record. -/
theorem rc6Decode_of_isWalk {x : List Pulse} {P : Nat → Nat} {a b : Pulse} {rest : List Pulse}
    (hx : Spec.padded x = a :: b :: rest) (ha : Spec.Within a 2442 2886) (hb : Spec.Within b 666 1110)
    (hP : IsWalk (Spec.padded x) P) :
    rc6Decode x =
      if P 20 < (Spec.padded x).length then .ok (rc6Unpack (walkWord P 21))
      else .error (.range (Spec.padded x).length) := by
  have hheader : rc6Header (Spec.padded x) = .ok () := hx ▸ rc6Header_of_within rest ha hb
  have hwalk : rc6Walk (Spec.padded x) 21 2 0#21 = _ := hP.start ▸ hP.rc6Walk_eq (n := 0) (m := 20) rfl
  refine (rc6Decode_of_header hheader).trans ((congrArg (Except.map rc6Unpack) hwalk).trans ?_)
  split <;> rfl

/-- Settles O35: the record of the walk's accumulator, whose bit `j` is the parity of position `20 - j`. -/
theorem rc6DecodeFollowsWalk : Obligations.Rc6DecodeFollowsWalk := by
  intro i x P a b rest s hi hx ha hb hstart hnext
  have hdec := rc6Decode_of_isWalk hx ha hb ⟨hstart, hnext⟩
  have hbit (j : Nat) (hj : j < 21) : (walkWord P 21).getLsbD j = decide (P (20 - j) % 2 = 1) :=
    getLsbD_walkWord P hj le_rfl
  refine ⟨fun hin => ?_, fun hout => ?_⟩
  · rw [if_pos hin] at hdec
    refine ⟨_, (answers_rc6Dec_record_iff hi s _).mpr hdec, fun k hk => ?_, fun k hk => ?_, ?_, fun k hk => ?_⟩
    · simp [rc6Unpack, hk, hbit k (by omega)]
    · simp [rc6Unpack, hk, hbit (8 + k) (by omega), show 20 - (8 + k) = 12 - k by omega]
    · simpa [rc6Unpack] using hbit 16 (by decide)
    · simp [rc6Unpack, hk, hbit (17 + k) (by omega), show 20 - (17 + k) = 3 - k by omega]
  · rw [if_neg (by omega)] at hdec
    exact answers_rc6Dec_error hi s hdec

/-- R141: the padded stream has even length. -/
theorem padded_length (x : List Pulse) : (Spec.padded x).length = x.length + x.length % 2 := rc6Padded_length x

/-- Settles O37: the decoding succeeds exactly when the last position, of 22 to 42, is inside the padded stream. -/
theorem rc6WalkLengthNeeded : Obligations.Rc6WalkLengthNeeded := by
  intro x P a b rest s hx ha hb hstart hnext
  have hP : IsWalk (Spec.padded x) P := ⟨hstart, hnext⟩
  have hlast := hP.bounds le_rfl
  have hlen := padded_length x
  have hiff : (∃ r, Spec.Answers (.rc6DecPulses x) s (Spec.okResp (.record r))) ↔ P 20 < (Spec.padded x).length := by
    simp only [answers_rc6Dec_record_iff (.inl rfl), rc6Decode_of_isWalk hx ha hb hP]
    by_cases hin : P 20 < (Spec.padded x).length
    · simp only [hin, if_true, iff_true]
      exact ⟨_, rfl⟩
    · simp [hin]
  refine ⟨by omega, by omega, hiff, fun h => ?_, fun h => hiff.mpr (by omega)⟩
  have := hiff.mp h
  omega

/-! ## The pulses of a frame -/

/-- One half of bit `k`'s cell (R75). -/
def halfPulse (k : Nat) : Pulse := BitVec.ofNat 16 (rc6HalfWidth k)

theorem halfPulse_eq (k : Nat) : halfPulse k = if k = 16 then 888#16 else 444#16 := by
  rw [halfPulse, rc6HalfWidth_eq, halfUnits]
  split <;> rfl

/-- R153: what two half-cells merge to. -/
theorem halfPulse_add (k : Nat) :
    halfPulse (k + 1) + halfPulse k = if k = 15 ∨ k = 16 then 1332#16 else 888#16 := by
  rw [halfPulse_eq, halfPulse_eq]
  by_cases h16 : k = 16
  · simp [h16]
  · by_cases h15 : k = 15 <;> simp [h15, h16]

/-- R153: the second half of bit `k + 1` and the first half of bit `k`: two pulses when the bits agree, else one. -/
def joint (data : BitVec 21) (k : Nat) : List Pulse :=
  if data.getLsbD k = data.getLsbD (k + 1) then [halfPulse (k + 1), halfPulse k]
  else [halfPulse (k + 1) + halfPulse k]

/-- The pulses from the second half of bit `k` on, up to the first half of bit 0. -/
def joints (data : BitVec 21) : Nat → List Pulse
  | 0 => []
  | k + 1 => joint data k ++ joints data k

/-- R152, R153: the cell of bit `k` after a stream that ends with the second half of bit `k + 1`. -/
theorem rc6Cell_concat {data : BitVec 21} {k : Nat} {init : List Pulse}
    (hlevel : decide (init.length % 2 = 0) = !data.getLsbD (k + 1)) :
    rc6Cell (init ++ [halfPulse (k + 1)]) (data.getLsbD k) (rc6HalfWidth k) =
        init ++ joint data k ++ [halfPulse k] ∧
      decide ((init ++ joint data k).length % 2 = 0) = !data.getLsbD k := by
  rw [rc6Cell_eq]
  by_cases hsame : data.getLsbD k = data.getLsbD (k + 1)
  · have hnext : decide ((init ++ [halfPulse (k + 1)]).length % 2 = 0) = data.getLsbD k := by
      rw [List.length_append, List.length_singleton, decide_even_succ, hlevel, hsame, Bool.not_not]
    have hfirst : polarityAt init.length ≠ polarityOfLevel (data.getLsbD k) := by
      rw [Ne, polarityAt_eq_iff, hlevel, hsame]
      exact Bool.not_ne_self _
    have hsecond : polarityAt (init ++ [halfPulse (k + 1)]).length ≠ polarityOfLevel !data.getLsbD k := by
      rw [Ne, polarityAt_eq_iff, hnext]
      exact Bool.self_ne_not _
    rw [rc6Append_other _ hfirst, rc6Append_other _ hsecond, joint, if_pos hsame]
    refine ⟨by simp [halfPulse], ?_⟩
    rw [← hnext, ← decide_even_succ, List.length_append, List.length_append]
    rfl
  · have hfirst : decide (init.length % 2 = 0) = data.getLsbD k := by rw [hlevel, ← Bool.eq_not_of_ne hsame]
    have hsecond : polarityAt init.length ≠ polarityOfLevel !data.getLsbD k := by
      rw [Ne, polarityAt_eq_iff, hfirst]
      exact Bool.self_ne_not _
    rw [rc6Append_same _ ((polarityAt_eq_iff _ _).mpr hfirst), rc6Append_other _ hsecond, joint, if_neg hsame]
    refine ⟨rfl, ?_⟩
    rw [List.length_append, List.length_singleton, decide_even_succ, hfirst]

/-- R152: the cells below bit `k` add their joints and the second half of bit 0. -/
theorem rc6Cells_concat {data : BitVec 21} {k : Nat} {init : List Pulse}
    (hlevel : decide (init.length % 2 = 0) = !data.getLsbD k) :
    rc6Cells data k (init ++ [halfPulse k]) = init ++ joints data k ++ [444#16] ∧
      decide ((init ++ joints data k).length % 2 = 0) = !data.getLsbD 0 := by
  induction k generalizing init with
  | zero => simpa [rc6Cells, joints, halfPulse_eq] using hlevel
  | succ k ih =>
    obtain ⟨hcell, hlevel'⟩ := rc6Cell_concat hlevel
    rw [rc6Cells, hcell, joints, ← List.append_assoc]
    exact ih hlevel'

/-- The frame up to the first half of bit 0: the leader, the first half of the start bit, the joints. -/
def frameInit (data : BitVec 21) : List Pulse := [2664#16, 888#16, 444#16] ++ joints data 20

/-- R74: the start bit is 1. -/
theorem rc6Word_getLsbD_twenty (f : Rc6Fields) : (rc6Word f).getLsbD 20 = true := by simp [rc6Word]

/-- R152: before the last space is dropped, the second half of bit 0 comes after all else. -/
theorem rc6Cells_leader (f : Rc6Fields) :
    rc6Cells (rc6Word f) 21 [2664#16, 888#16] = frameInit (rc6Word f) ++ [444#16] ∧
      decide ((frameInit (rc6Word f)).length % 2 = 0) = !(rc6Word f).getLsbD 0 := by
  have hstart : rc6Cells (rc6Word f) 21 [2664#16, 888#16] =
      rc6Cells (rc6Word f) 20 ([2664#16, 888#16, 444#16] ++ [halfPulse 20]) := by
    rw [rc6Cells, rc6Word_getLsbD_twenty]
    rfl
  rw [hstart]
  exact rc6Cells_concat (by rw [rc6Word_getLsbD_twenty]; rfl)

/-- R154: the second half of bit 0 is dropped when it is a space. -/
theorem rc6Frame_eq (f : Rc6Fields) :
    rc6Frame (rc6Word f) = frameInit (rc6Word f) ++ if (rc6Word f).getLsbD 0 then [] else [444#16] := by
  obtain ⟨hcells, hlevel⟩ := rc6Cells_leader f
  have hframe : rc6Frame (rc6Word f) = rc6DropSpace (frameInit (rc6Word f) ++ [444#16]) :=
    congrArg rc6DropSpace hcells
  rw [hframe, rc6DropSpace_concat, hlevel]
  cases (rc6Word f).getLsbD 0 <;> simp

/-! ## Operand forms, frame length and pulse values -/

/-- R150: the masks of the encoder are idempotent. -/
theorem rc6Word_masked (a b c d : Field) :
    rc6Word ⟨a &&& 0xFF#32, b &&& 0xFF#32, c &&& 1#32, d &&& 7#32⟩ = rc6Word ⟨a, b, c, d⟩ := by
  simp only [rc6Word, BitVec.and_assoc, BitVec.and_self]

theorem rc6FieldsOf_of_length {l : List Field} (h : l.length = 0 ∨ 4 < l.length) : rc6FieldsOf l = .error .type := by
  unfold rc6FieldsOf
  split <;> simp_all

/-- Settles O39: each shorter form stands for the fields of a form of four, and a word does not see the bits masked. -/
theorem rc6EncodeOperandForms : Obligations.Rc6EncodeOperandForms := by
  refine ⟨fun l s hl => answers_of_instrResponse_eq ?_, fun a b c d s => ⟨rfl, rfl, rfl, rfl, ?_⟩⟩
  · rw [instrResponse, rc6FieldsOf_of_length hl]
    rfl
  · refine ⟨_, answers_of_fieldsOf (f := ⟨a, b, c, d⟩) (.inr (.inr (.inr (.inl ⟨a, b, c, d, rfl, rfl⟩)))) s, ?_⟩
    rw [← rc6Word_masked]
    exact answers_of_fieldsOf (.inr (.inr (.inr (.inl ⟨_, _, _, _, rfl, rfl⟩)))) s

/-- R156: two pulses per neighbour pair, and one fewer for each that differs. -/
theorem joints_length (data : BitVec 21) (k : Nat) :
    (joints data k).length + (List.range k).countP (fun j => data.getLsbD (j + 1) != data.getLsbD j) = 2 * k := by
  induction k with
  | zero => rfl
  | succ k ih =>
    rw [joints, List.length_append, List.range_succ, List.countP_append, List.countP_singleton, joint]
    by_cases hsame : data.getLsbD k = data.getLsbD (k + 1)
    · simp [hsame]
      omega
    · simp [hsame, Ne.symm hsame]
      omega

theorem rc6Frame_length (f : Rc6Fields) :
    (rc6Frame (rc6Word f)).length = 3 + (joints (rc6Word f) 20).length + if (rc6Word f).getLsbD 0 then 0 else 1 := by
  rw [rc6Frame_eq, frameInit, List.length_append, List.length_append]
  split <;> rfl

/-- Settles O40: the joints and four pulses more, or three where the last one is dropped; the length is odd. -/
theorem rc6FrameLength : Obligations.Rc6FrameLength := by
  intro f data D
  have hodd : (rc6Frame data).length % 2 = 1 := (rc6Frame_carries_frameSignal f).1
  have hjoints : (joints data 20).length + D = 40 := joints_length data 20
  have hD : D ≤ 20 := List.countP_le_length
  have hlen : (rc6Frame data).length = 3 + (joints data 20).length + if data.getLsbD 0 then 0 else 1 :=
    rc6Frame_length f
  have hmark (h0 : data.getLsbD 0 = false) : (rc6Frame data).length = 44 - D := by
    rw [h0, if_neg (by decide)] at hlen
    omega
  have hspace (h0 : data.getLsbD 0 = true) : (rc6Frame data).length = 43 - D := by
    rw [h0, if_pos rfl] at hlen
    omega
  refine ⟨hmark, hspace, hodd, ?_⟩
  cases h0 : data.getLsbD 0
  · have := hmark h0
    omega
  · have := hspace h0
    omega

/-- R153: a half-cell is T or 2T, and a merged pulse 2T or 3T, since no two toggle halves meet in a joint. -/
theorem eq_of_mem_joint {data : BitVec 21} {k : Nat} {v : Pulse} (h : v ∈ joint data k) :
    v = 444#16 ∨ v = 888#16 ∨ v = 1332#16 := by
  have hhalf (j : Nat) : halfPulse j = 444#16 ∨ halfPulse j = 888#16 := by
    rw [halfPulse_eq]
    split <;> simp
  rw [joint] at h
  split at h
  · obtain rfl | rfl := List.mem_pair.mp h
    · exact (hhalf (k + 1)).imp_right .inl
    · exact (hhalf k).imp_right .inl
  · rw [List.mem_singleton.mp h, halfPulse_add]
    split <;> simp

theorem eq_of_mem_joints {data : BitVec 21} {k : Nat} {v : Pulse} (h : v ∈ joints data k) :
    v = 444#16 ∨ v = 888#16 ∨ v = 1332#16 := by
  induction k with
  | zero => cases h
  | succ k ih => exact (List.mem_append.mp h).elim eq_of_mem_joint ih

/-- R152: the leader, the first half of the start bit, and pulses of T to 3T. -/
theorem rc6Frame_eq_cons (f : Rc6Fields) : ∃ rest, rc6Frame (rc6Word f) = 2664#16 :: 888#16 :: 444#16 :: rest ∧
    ∀ v ∈ rest, v = 444#16 ∨ v = 888#16 ∨ v = 1332#16 := by
  refine ⟨_, rc6Frame_eq f, fun v hv => ?_⟩
  obtain hv | hv := List.mem_append.mp hv
  · exact eq_of_mem_joints hv
  · split at hv
    · cases hv
    · exact .inl (List.mem_singleton.mp hv)

/-- Settles O41: the first half of the start bit is 444, and the rest comes from joints. -/
theorem rc6FramePulseValues : Obligations.Rc6FramePulseValues := by
  intro f
  obtain ⟨rest, hframe, hrest⟩ := rc6Frame_eq_cons f
  exact ⟨_, hframe, List.forall_mem_cons.mpr ⟨.inl rfl, hrest⟩⟩

/-! ## Frames of the other codec -/

/-- R158: 2664 is outside the window of the NEC leading mark. -/
theorem necDecode_rc6Frame (f : Rc6Fields) :
    necDecode (rc6Frame (rc6Word f)) = .error (.timing .necLeadMark 2664#16) := by
  obtain ⟨rest, hframe, -⟩ := rc6Frame_eq_cons f
  refine necDecode_of_header_error ?_
  rw [hframe, necHeader_cons]
  rfl

/-- R158: so an RC6 frame is no repeat code either. -/
theorem necIsRepeat_rc6Frame (f : Rc6Fields) : necIsRepeat (rc6Frame (rc6Word f)) = false := by
  refine Bool.eq_false_iff.mpr fun h => ?_
  obtain ⟨u, v, w, hframe, ⟨hlow, -⟩, -⟩ := (necIsRepeat_iff _).mp h
  obtain ⟨rest, hframe', -⟩ := rc6Frame_eq_cons f
  obtain ⟨rfl, -⟩ := List.cons.inj (hframe.symm.trans hframe')
  exact absurd hlow (by decide)

/-- R158: 9000 is outside the window of the RC6 leading mark. -/
theorem rc6Decode_necFrame (p : NecPayload) :
    rc6Decode (necFrame p) = .error (.timing .rc6LeadMark 9000#16) := by
  refine rc6Decode_of_header_error ?_
  obtain ⟨rest, hpadded⟩ : ∃ rest, rc6Padded (necFrame p) = 9000#16 :: 4500#16 :: rest := by
    rw [rc6Padded, necFrame_length]
    exact ⟨_, rfl⟩
  rw [hpadded, rc6Header_cons]
  rfl

/-- Settles O43: each decoder looks at the first pulse, which is outside its window. -/
theorem framesDoNotCrossDecode : Obligations.FramesDoNotCrossDecode := by
  refine fun f p s => ⟨?_, ?_, ?_⟩
  · refine answers_of_instrResponse_eq ?_
    rw [instrResponse, necDecode_rc6Frame]
    rfl
  · exact answers_rc6Dec_error (.inl rfl) s (rc6Decode_necFrame p)
  · refine answers_of_instrResponse_eq ?_
    rw [instrResponse, necIsRepeat_rc6Frame]
    rfl

/-! ## Where the bits lie -/

/-- The position in a frame of the second half of the `n`th bit after the start bit, by R153. -/
def secondHalfPos (data : BitVec 21) : Nat → Nat
  | 0 => 3
  | n + 1 => secondHalfPos data n + if data.getMsbD (n + 1) = data.getMsbD n then 2 else 1

theorem secondHalfPos_step (data : BitVec 21) (n : Nat) :
    secondHalfPos data n + 1 ≤ secondHalfPos data (n + 1) ∧ secondHalfPos data (n + 1) ≤ secondHalfPos data n + 2 := by
  rw [secondHalfPos]
  split <;> omega

theorem secondHalfPos_bounds (data : BitVec 21) (n : Nat) :
    n + 3 ≤ secondHalfPos data n ∧ secondHalfPos data n ≤ 2 * n + 3 := by
  induction n with
  | zero => simp [secondHalfPos]
  | succ n ih =>
    have := secondHalfPos_step data n
    omega

/-- The `n`th bit after the start bit is bit `20 - n`. -/
theorem getMsbD_eq_of_add {data : BitVec 21} {n k : Nat} (h : n + k = 20) : data.getMsbD n = data.getLsbD k := by
  rw [BitVec.getMsbD, decide_eq_true (by omega), Bool.true_and, show 21 - 1 - n = k by omega]

/-- R41, R152: the second half of a bit is a space, at an odd index, exactly when the bit is 1. -/
theorem secondHalfPos_parity {data : BitVec 21} (hstart : data.getMsbD 0 = true) (n : Nat) :
    decide (secondHalfPos data n % 2 = 1) = data.getMsbD n := by
  induction n with
  | zero => simp [hstart, secondHalfPos]
  | succ n ih =>
    rw [secondHalfPos]
    by_cases hsame : data.getMsbD (n + 1) = data.getMsbD n
    · rw [if_pos hsame, hsame, ← ih, Nat.add_mod_right]
    · rw [if_neg hsame, Bool.eq_not_of_ne hsame, ← ih, ← decide_not, decide_eq_decide]
      omega

/-- The joints from bit `20 - n` on stand at `secondHalfPos`. -/
theorem frameInit_split (data : BitVec 21) {n k : Nat} (h : n + k = 20) :
    ∃ pre, pre.length = secondHalfPos data n ∧ frameInit data = pre ++ joints data k := by
  induction n generalizing k with
  | zero =>
    obtain rfl : k = 20 := by omega
    exact ⟨[2664#16, 888#16, 444#16], rfl, rfl⟩
  | succ n ih =>
    obtain ⟨pre, hlen, hsplit⟩ := ih (k := k + 1) (by omega)
    refine ⟨pre ++ joint data k, ?_, by rw [hsplit, joints, List.append_assoc]⟩
    rw [List.length_append, hlen, secondHalfPos, getMsbD_eq_of_add h, getMsbD_eq_of_add (k := k + 1) (by omega),
      joint]
    split <;> rfl

theorem frameInit_length (data : BitVec 21) : (frameInit data).length = secondHalfPos data 20 := by
  obtain ⟨pre, hlen, hsplit⟩ := frameInit_split data (n := 20) (k := 0) rfl
  rw [hsplit, joints, List.append_nil, hlen]

/-! ## Keeping in step -/

/-- R153: the pulse with the second half of the `n`th bit after the start bit; the toggle bit is the fourth. -/
def secondHalfPulse (data : BitVec 21) (n : Nat) : Pulse :=
  if data.getMsbD (n + 1) = data.getMsbD n then if n = 4 then 888#16 else 444#16
  else if n = 3 ∨ n = 4 then 1332#16 else 888#16

/-- The joint after the `n`th bit starts with this pulse. -/
theorem joint_eq_cons (data : BitVec 21) {n k : Nat} (h : n + (k + 1) = 20) :
    ∃ rest, joint data k = secondHalfPulse data n :: rest := by
  have htoggle : k + 1 = 16 ↔ n = 4 := by omega
  have hmerged : k = 15 ∨ k = 16 ↔ n = 3 ∨ n = 4 := by omega
  rw [joint, secondHalfPulse, getMsbD_eq_of_add h, getMsbD_eq_of_add (n := n + 1) (k := k) (by omega), halfPulse_add,
    halfPulse_eq]
  simp only [htoggle, hmerged]
  split <;> exact ⟨_, rfl⟩

theorem nextPos_append_cons (pre : List Pulse) (v : Pulse) (rest : List Pulse) :
    Spec.nextPos (pre ++ v :: rest) pre.length = rc6Advance pre.length v := by
  rw [← rc6Advance_eq_nextPos (by simp)]
  simp

/-- R143: what the walk does at the second half of the `n`th bit, whatever follows the last joint. -/
theorem nextPos_secondHalfPos (data : BitVec 21) (tail : List Pulse) {n : Nat} (hn : n < 20) :
    Spec.nextPos (frameInit data ++ tail) (secondHalfPos data n) =
      rc6Advance (secondHalfPos data n) (secondHalfPulse data n) := by
  obtain ⟨k, hk⟩ : ∃ k, n + (k + 1) = 20 := ⟨19 - n, by omega⟩
  obtain ⟨pre, hpre, hsplit⟩ := frameInit_split data hk
  obtain ⟨rest, hjoint⟩ := joint_eq_cons data hk
  rw [hsplit, joints, hjoint, ← hpre, List.append_assoc]
  exact nextPos_append_cons pre _ _

/-- R143: the walk, at the second half of the `n`th bit, goes on to that of the next one. The two ways to fail are a
toggle half of 2T taken for a merged pulse away from position 10, and a merged pulse of 2T taken for a single one at it. -/
def KeepsStep (data : BitVec 21) (n : Nat) : Prop :=
  if n = 4 then data.getMsbD (n + 1) = data.getMsbD n → secondHalfPos data n = 10
  else secondHalfPos data n = 10 → data.getMsbD (n + 1) = data.getMsbD n

theorem rc6Advance_eq (pos : Nat) (v : Pulse) :
    rc6Advance pos v = if v.toNat < (if pos = 10 then 1332 else 666) then pos + 2 else pos + 1 := rfl

theorem rc6Advance_eq_add_two_iff (pos : Nat) (v : Pulse) :
    rc6Advance pos v = pos + 2 ↔ v.toNat < if pos = 10 then 1332 else 666 := by
  rw [rc6Advance_eq]
  split <;> simp [*]

theorem rc6Advance_eq_add_one_iff (pos : Nat) (v : Pulse) :
    rc6Advance pos v = pos + 1 ↔ ¬ v.toNat < if pos = 10 then 1332 else 666 := by
  rw [rc6Advance_eq]
  split <;> simp [*]

/-- R143: a pulse of T is short, and one of 3T long, at every position; one of 2T is short at position 10 only. -/
theorem rc6Advance_secondHalfPos_iff (data : BitVec 21) (n : Nat) :
    rc6Advance (secondHalfPos data n) (secondHalfPulse data n) = secondHalfPos data (n + 1) ↔ KeepsStep data n := by
  have hbounds := secondHalfPos_bounds data n
  rw [KeepsStep, secondHalfPos, secondHalfPulse]
  generalize secondHalfPos data n = pos at hbounds
  by_cases hsame : data.getMsbD (n + 1) = data.getMsbD n
  · simp only [hsame, if_true, rc6Advance_eq_add_two_iff, true_imp_iff, imp_true_iff]
    by_cases hpos : pos = 10 <;> by_cases h4 : n = 4 <;> simp [hpos, h4]
  · simp only [hsame, if_false, rc6Advance_eq_add_one_iff, false_imp_iff]
    by_cases hpos : pos = 10
    · by_cases h4 : n = 4
      · simp [hpos, h4]
      · simp [hpos, h4, show n ≠ 3 by omega]
    · by_cases hmerged : n = 3 ∨ n = 4 <;> simp [hpos, hmerged]

theorem nextPos_secondHalfPos_iff (data : BitVec 21) (tail : List Pulse) {n : Nat} (hn : n < 20) :
    Spec.nextPos (frameInit data ++ tail) (secondHalfPos data n) = secondHalfPos data (n + 1) ↔ KeepsStep data n := by
  rw [nextPos_secondHalfPos data tail hn, rc6Advance_secondHalfPos_iff]

/-- R143: from the first half of the start bit, of T, the walk goes to position 4. -/
theorem nextPos_two (data : BitVec 21) (tail : List Pulse) : Spec.nextPos (frameInit data ++ tail) 2 = 4 := rfl

/-! ## Two walks -/

section
variable {data : BitVec 21} {tail : List Pulse} {P : Nat → Nat} (hP : IsWalk (frameInit data ++ tail) P)
include hP

theorem IsWalk.one_eq : P 1 = 4 := by
  rw [hP.next 0 (by decide), hP.start, nextPos_two]

/-- R157: the walk that reads the right parities reads the right positions: a step of 1 or 2 is fixed by its parity. -/
theorem IsWalk.eq_of_parity (h : ∀ n < 20, P (n + 1) % 2 = secondHalfPos data (n + 1) % 2) {n : Nat} (hn : n < 20) :
    P (n + 1) = secondHalfPos data (n + 1) := by
  induction n with
  | zero =>
    have hparity := h 0 hn
    have hbounds : 4 ≤ secondHalfPos data (0 + 1) ∧ secondHalfPos data (0 + 1) ≤ 5 := secondHalfPos_step data 0
    rw [hP.one_eq] at hparity ⊢
    omega
  | succ n ih =>
    have := ih (by omega)
    have := h (n + 1) hn
    have := secondHalfPos_step data (n + 1)
    have := hP.step_bounds hn
    omega

/-- R157: the walk stays at the second halves exactly when it starts at one and keeps step. -/
theorem IsWalk.eq_secondHalfPos_iff :
    (∀ n < 20, P (n + 1) = secondHalfPos data (n + 1)) ↔
      secondHalfPos data 1 = 4 ∧ ∀ n < 19, KeepsStep data (n + 1) := by
  constructor
  · intro h
    refine ⟨(h 0 (by decide)).symm.trans hP.one_eq, fun n hn => ?_⟩
    rw [← nextPos_secondHalfPos_iff data tail (by omega), ← h n (by omega), ← hP.next (n + 1) (by omega)]
    exact h (n + 1) (by omega)
  · rintro ⟨hone, hkeeps⟩ n hn
    induction n with
    | zero => exact hP.one_eq.trans hone.symm
    | succ n ih =>
      rw [hP.next (n + 1) hn, ih (by omega)]
      exact (nextPos_secondHalfPos_iff data tail hn).mpr (hkeeps n (by omega))

end

/-! ## Records and words -/

theorem getMsbD_walkWord (P : Nat → Nat) {n : Nat} (hn : n < 21) :
    (walkWord P 21).getMsbD n = decide (P n % 2 = 1) := by
  rw [getMsbD_eq_of_add (k := 20 - n) (by omega), getLsbD_walkWord P (by omega) le_rfl,
    show 21 - 1 - (20 - n) = n by omega]

/-- R146: a record is the bits of the word after the start bit. -/
theorem rc6Unpack_eq_iff (a b : BitVec 21) :
    rc6Unpack a = rc6Unpack b ↔ ∀ n < 20, a.getMsbD (n + 1) = b.getMsbD (n + 1) := by
  constructor
  · intro h n hn
    obtain ⟨hinfo, hcontrol, htoggle, hmode⟩ := Rc6Record.mk.inj h
    have field {start len i : Nat} (hfield : a.extractLsb' start len = b.extractLsb' start len) (hi : i < len)
        (hbit : n + 1 + (start + i) = 20) : a.getMsbD (n + 1) = b.getMsbD (n + 1) := by
      have := congrArg (·.getLsbD i) hfield
      simpa [getMsbD_eq_of_add hbit, hi] using this
    obtain hn | hn | hn | hn : n < 3 ∨ n = 3 ∨ (4 ≤ n ∧ n < 12) ∨ 12 ≤ n := by omega
    · exact field (i := 2 - n) hmode (by omega) (by omega)
    · exact field (i := 0) htoggle (by omega) (by omega)
    · exact field (i := 11 - n) hcontrol (by omega) (by omega)
    · exact field (i := 19 - n) hinfo (by omega) (by omega)
  · intro h
    have field (start len : Nat) (hlen : start + len ≤ 20) : a.extractLsb' start len = b.extractLsb' start len := by
      apply BitVec.eq_of_getLsbD_eq
      intro i hi
      have hbit : 19 - (start + i) + 1 + (start + i) = 20 := by omega
      simpa [getMsbD_eq_of_add hbit, hi] using h (19 - (start + i)) (by omega)
    rw [rc6Unpack, rc6Unpack, field 0 8 (by decide), field 8 8 (by decide), field 16 1 (by decide),
      field 17 3 (by decide)]

/-- The fields of a record. -/
def Rc6Record.fields (r : Rc6Record) : Rc6Fields :=
  ⟨r.info.setWidth 32, r.control.setWidth 32, r.toggle.setWidth 32, r.mode.setWidth 32⟩

/-- R146, R151: the fields lie in the word where the decoder takes them from. -/
theorem rc6Unpack_rc6Word (r : Rc6Record) : rc6Unpack (rc6Word r.fields) = r := by
  cases r
  rw [rc6Unpack]
  congr 1 <;> (apply BitVec.eq_of_getLsbD_eq; intro i hi; interval_cases i <;> simp [rc6Word, Rc6Record.fields])

/-! ## The table of R157 -/

/-- The steps after the seventh are past position 10 and past the toggle bit. -/
theorem keepsStep_of_seven_lt {data : BitVec 21} {n : Nat} (hn : 7 < n) : KeepsStep data n := by
  have := secondHalfPos_bounds data n
  rw [KeepsStep, if_neg (by omega)]
  omega

/-- The walk starts at a second half and keeps step for as long as position 10 and the toggle bit are ahead. -/
def HeadKeepsStep (data : BitVec 21) : Prop := secondHalfPos data 1 = 4 ∧ ∀ n < 7, KeepsStep data (n + 1)

theorem headKeepsStep_iff (data : BitVec 21) :
    HeadKeepsStep data ↔ secondHalfPos data 1 = 4 ∧ ∀ n < 19, KeepsStep data (n + 1) := by
  refine and_congr_right' ⟨fun h n _ => ?_, fun h n hn => h n (by omega)⟩
  by_cases hn : n < 7
  · exact h n hn
  · exact keepsStep_of_seven_lt (by omega)

section
variable {data data' : BitVec 21} (h : ∀ n ≤ 8, data.getMsbD n = data'.getMsbD n)
include h

theorem secondHalfPos_congr {n : Nat} (hn : n ≤ 8) : secondHalfPos data n = secondHalfPos data' n := by
  induction n with
  | zero => rfl
  | succ n ih => rw [secondHalfPos, secondHalfPos, ih (by omega), h n (by omega), h (n + 1) hn]

/-- So only the start bit and the eight bits after it matter. -/
theorem headKeepsStep_congr : HeadKeepsStep data ↔ HeadKeepsStep data' := by
  have hkeeps (n : Nat) (hn : n < 7) : KeepsStep data (n + 1) ↔ KeepsStep data' (n + 1) := by
    rw [KeepsStep, KeepsStep, secondHalfPos_congr h (by omega), h (n + 1) (by omega), h (n + 1 + 1) (by omega)]
  rw [HeadKeepsStep, HeadKeepsStep, secondHalfPos_congr h (by decide)]
  exact and_congr_right' (forall₂_congr hkeeps)

end

/-- A record of what R157's table looks at: the mode, the toggle bit and the high half of control. -/
def Rc6Record.ofHead (m : BitVec 3) (t : BitVec 1) (c : BitVec 4) : Rc6Record :=
  ⟨0#8, c.setWidth 8 <<< 4, t, m⟩

/-- The start bit and the eight bits after it, in their places. -/
def headWord (m : BitVec 3) (t : BitVec 1) (c : BitVec 4) : BitVec 21 :=
  1#21 <<< 20 ||| m.setWidth 21 <<< 17 ||| t.setWidth 21 <<< 16 ||| c.setWidth 21 <<< 12

/-- R157: its table, by evaluation of the 256 heads. -/
theorem headKeepsStep_headWord : ∀ (m : BitVec 3) (t : BitVec 1) (c : BitVec 4),
    HeadKeepsStep (headWord m t c) ↔ Spec.roundTrips (Rc6Record.ofHead m t c) := by
  unfold HeadKeepsStep KeepsStep Spec.roundTrips
  decide +kernel

theorem getMsbD_rc6Word_fields (r : Rc6Record) {n : Nat} (hn : n ≤ 8) :
    (rc6Word r.fields).getMsbD n = (headWord r.mode r.toggle (r.control.extractLsb' 4 4)).getMsbD n := by
  interval_cases n <;> simp [BitVec.getMsbD, rc6Word, Rc6Record.fields, headWord]

/-- R157: info and the low half of control never affect the outcome. -/
theorem roundTrips_ofHead (r : Rc6Record) :
    Spec.roundTrips (Rc6Record.ofHead r.mode r.toggle (r.control.extractLsb' 4 4)) ↔ Spec.roundTrips r := by
  have high (k len : Nat) (hk : 4 ≤ k) (hlen : k + len ≤ 8) :
      ((r.control.extractLsb' 4 4).setWidth 8 <<< 4).extractLsb' k len = r.control.extractLsb' k len := by
    apply BitVec.eq_of_getLsbD_eq
    intro i hi
    simp [hi, show ¬ k + i < 4 by omega, show k + i < 8 by omega, show k + i - 4 < 4 by omega,
      show 4 + (k + i - 4) = k + i by omega]
  unfold Spec.roundTrips Rc6Record.ofHead
  rw [high 6 2 (by decide) (by decide), high 5 3 (by decide) (by decide), high 4 4 (by decide) (by decide)]

theorem headKeepsStep_iff_roundTrips (r : Rc6Record) : HeadKeepsStep (rc6Word r.fields) ↔ Spec.roundTrips r := by
  rw [headKeepsStep_congr fun n hn => getMsbD_rc6Word_fields r hn, headKeepsStep_headWord, roundTrips_ofHead]

/-! ## The round trip -/

/-- R141: where the last space was dropped, the sentinel stands in its place. -/
theorem padded_rc6Frame (f : Rc6Fields) :
    ∃ v rest, Spec.padded (rc6Frame (rc6Word f)) = frameInit (rc6Word f) ++ v :: rest := by
  rw [Spec.padded, if_pos (rc6Frame_carries_frameSignal f).1, rc6Frame_eq, List.append_assoc]
  split
  · exact ⟨65535#16, [], rfl⟩
  · exact ⟨444#16, [65535#16], rfl⟩

/-- The positions of the walk over a stream. -/
def rc6Position (s : List Pulse) : Nat → Nat
  | 0 => 2
  | n + 1 => Spec.nextPos s (rc6Position s n)

theorem isWalk_rc6Position (s : List Pulse) : IsWalk s (rc6Position s) := ⟨rfl, fun _ _ => rfl⟩

/-- R157: a walk over a frame reads the frame's record exactly when it stays at the second halves. -/
theorem IsWalk.rc6Unpack_walkWord_iff {data : BitVec 21} {tail : List Pulse} {P : Nat → Nat}
    (hP : IsWalk (frameInit data ++ tail) P) (hstart : data.getMsbD 0 = true) :
    rc6Unpack (walkWord P 21) = rc6Unpack data ↔ ∀ n < 20, P (n + 1) = secondHalfPos data (n + 1) := by
  rw [rc6Unpack_eq_iff]
  constructor
  · intro h n hn
    refine hP.eq_of_parity (fun m hm => ?_) hn
    have hparity := h m hm
    rw [getMsbD_walkWord P (by omega), ← secondHalfPos_parity hstart, decide_eq_decide] at hparity
    omega
  · intro h n hn
    rw [getMsbD_walkWord P (by omega), h n hn, secondHalfPos_parity hstart]

/-- R157: a frame decodes to the fields of its word exactly when the walk keeps step. -/
theorem rc6Decode_rc6Frame_iff (f : Rc6Fields) :
    rc6Decode (rc6Frame (rc6Word f)) = .ok (rc6Unpack (rc6Word f)) ↔ HeadKeepsStep (rc6Word f) := by
  obtain ⟨v, rest, hpadded⟩ := padded_rc6Frame f
  have hP := isWalk_rc6Position (Spec.padded (rc6Frame (rc6Word f)))
  have hdec := rc6Decode_of_isWalk hpadded (by simp [Spec.Within]) (by simp [Spec.Within]) hP
  rw [hpadded] at hP hdec
  have hstart : (rc6Word f).getMsbD 0 = true := by rw [getMsbD_eq_of_add (k := 20) rfl, rc6Word_getLsbD_twenty]
  have hrecord := hP.rc6Unpack_walkWord_iff hstart
  rw [headKeepsStep_iff, ← hP.eq_secondHalfPos_iff, ← hrecord, hdec]
  split
  case isTrue => rw [Except.ok.injEq]
  case isFalse hout =>
    refine ⟨nofun, fun h => absurd ?_ hout⟩
    rw [hrecord.mp h 19 (by decide), List.length_append, frameInit_length]
    simp

/-- Settles O42: the string parses to the frame, whose walk keeps step exactly when the record is in the table. -/
theorem rc6RoundTripExactly : Obligations.Rc6RoundTripExactly := by
  intro r s
  refine ⟨txFormat (rc6Frame (rc6Word r.fields)),
    answers_of_fieldsOf (.inr (.inr (.inr (.inl ⟨_, _, _, _, rfl, rfl⟩)))) s, ?_⟩
  have hdec := rc6Decode_rc6Frame_iff r.fields
  rw [rc6Unpack_rc6Word, headKeepsStep_iff_roundTrips] at hdec
  exact (answers_rc6Dec_record_iff (.inr ⟨_, rfl, txParse_txFormat _⟩) s r).trans hdec

end Sys2Proof.Machine
end

