-- ==== Sys2Proof/Proofs/Exceptions.lean ====
section
/-! PROOFS. The statements of 60_exceptions.md: what raising an error does (R170, R171), the STATUS values of each operation
(R173), the outcomes of the two decoders in their order (R180, R181), and the host's dispatch of a line (R187). -/

namespace Sys2Proof.Machine

open Sys2Proof

/-! ## Raising an error -/

/-- Settles O16: `raise_eq` delivers the response of the error, whose fields are those of its kind. -/
theorem raiseRecordsKindAndInformation : Obligations.RaiseRecordsKindAndInformation :=
  fun s v n => ⟨raise_eq .format s, raise_eq (.timing .necLeadMark v) s, raise_eq (.timing .necLeadGap v) s,
    raise_eq (.timing .necBitGap v) s, raise_eq (.timing .rc6LeadMark v) s, raise_eq (.timing .rc6LeadGap v) s,
    raise_eq (.length n) s, raise_eq .type s, raise_eq (.range n) s, raise_eq .illegalOp s⟩

/-! ## The STATUS values of each operation -/

/-- R170: no error kind has a reserved STATUS. -/
theorem errStatus_mem (e : Err) : errStatus e ∈ [0#4, 1#4, 2#4, 3#4, 4#4, 5#4, 6#4] := by
  cases e <;> simp [errStatus]

theorem responseOf_status_mem (x : Except Err Result) :
    (responseOf x).status ∈ [0#4, 1#4, 2#4, 3#4, 4#4, 5#4, 6#4] := by
  cases x with
  | error e => exact errStatus_mem e
  | ok r => exact List.mem_cons_self

theorem txTol_error {m n p q : BitVec 16} {e : Err} (h : txTol m n p q = .error e) : e = .type := by
  unfold txTol at h
  split at h <;> simp at h
  exact h.symm

theorem necEncode_error {x : List Byte} {e : Err} (h : necEncode x = .error e) : e = .length x.length := by
  obtain h | ⟨p, -, h⟩ := bind_error h
  · exact necNormalize_error h
  · cases h

section
variable {α : Type} (f : α → Result)

/-- R173: an operation whose errors are all of one kind answers OK or that kind's STATUS. -/
theorem oneErrorKind_status_mem {x : Except Err α} {k : BitVec 4} (hx : ∀ e, x = .error e → errStatus e = k) :
    (responseOf (x.map f)).status ∈ [0#4, k] := by
  cases x with
  | error e => exact List.mem_pair.mpr (.inr (hx e rfl))
  | ok a => exact List.mem_cons_self

/-- R173: a decoder's PULSES form adds TIMING_ERROR and RANGE_ERROR to OK. -/
theorem decode_status_mem {x : Except Err α} (hx : ∀ e, x = .error e → isDecodeErr e) :
    (responseOf (x.map f)).status ∈ [0#4, 2#4, 5#4] := by
  cases x with
  | error e => exact List.mem_cons_of_mem _ (List.mem_pair.mpr (isDecodeErr_status (hx e rfl)))
  | ok a => exact List.mem_cons_self

/-- R173: its HEX form adds FORMAT_ERROR, which comes from the parser. -/
theorem decodeHex_status_mem (h : List Char) {dec : List Pulse → Except Err α}
    (hdec : ∀ x e, dec x = .error e → isDecodeErr e) :
    (responseOf (txParse h >>= fun x => (dec x).map f)).status ∈ [0#4, 1#4, 2#4, 5#4] := by
  cases hx : txParse h with
  | error e =>
    obtain rfl := txParse_error hx
    exact List.mem_cons_of_mem _ List.mem_cons_self
  | ok x => exact List.cons_subset_cons _ (List.subset_cons_self _ _) (decode_status_mem f (hdec x))

end

/-- R173, for the response of every instruction. -/
theorem instrResponse_status_mem (p : Params) (i : Instr) : (instrResponse p i).status ∈ Spec.statuses i := by
  cases i with
  | txParseHex h => exact oneErrorKind_status_mem _ fun _ he => congrArg errStatus (txParse_error he)
  | txFormatPulses x => exact List.mem_singleton_self _
  | txTolTol m n a q => exact oneErrorKind_status_mem _ fun _ he => congrArg errStatus (txTol_error he)
  | necDecHex h => exact decodeHex_status_mem _ h fun _ _ => necDecode_error
  | necDecPulses x => exact decode_status_mem _ fun _ => necDecode_error
  | necEncBytes x => exact oneErrorKind_status_mem _ fun _ he => congrArg errStatus (necEncode_error he)
  | necEncInt v =>
    rw [instrResponse]
    split
    · exact responseOf_status_mem _
    · exact errStatus_mem .type
  | necRepHex h => exact List.mem_singleton_self _
  | necRepPulses x => exact List.mem_singleton_self _
  | rc6DecHex h => exact decodeHex_status_mem _ h fun _ _ => rc6Decode_error
  | rc6DecPulses x => exact decode_status_mem _ fun _ => rc6Decode_error
  | rc6EncFields f => exact oneErrorKind_status_mem _ fun _ he => congrArg errStatus (rc6FieldsOf_error he)
  | rc6EncInt v => exact List.mem_singleton_self _

/-- Settles O18: the response of the instruction has one of its operation's STATUS values. -/
theorem statusesOfEachOperation : Obligations.StatusesOfEachOperation :=
  fun i s => ⟨_, answers_instrResponse i s, instrResponse_status_mem s.params i⟩

/-! ## The outcomes of NEC.DEC -/

/-- An error of the decoding is the answer of NEC.DEC. -/
theorem answers_necDec_error {i : Instr} {x : List Pulse} (h : Spec.Reads .necDecPulses .necDecHex i x) (s : State)
    {e : Err} (hx : necDecode x = .error e) : Spec.Answers i s (errResponse e) := by
  have hanswer := answers_of_reads_necDec h s
  rwa [hx] at hanswer

/-- R180: the first check finds no pulse. -/
theorem necHeader_nil : necHeader [] = .error (.range 0) := rfl

section
variable {a b c : Pulse} (rest : List Pulse)

theorem necHeader_of_leadMark (ha : ¬ Spec.Within a 6750 11250) :
    necHeader (a :: rest) = .error (.timing .necLeadMark a) := by
  rw [necHeader, checkPulse_of_getElem? (v := a) rfl, if_neg (mt (necWindow_leadMark a).mp ha)]
  rfl

/-- R180: the second check finds no pulse. -/
theorem necHeader_singleton (ha : Spec.Within a 6750 11250) : necHeader [a] = .error (.range 1) := by
  rw [necHeader, checkPulse_of_getElem? (v := a) rfl, if_pos ((necWindow_leadMark a).mpr ha)]
  rfl

theorem necHeader_of_leadGap (ha : Spec.Within a 6750 11250) (hb : ¬ Spec.Within b 3375 5625) :
    necHeader (a :: b :: rest) = .error (.timing .necLeadGap b) := by
  rw [necHeader, checkPulse_of_getElem? (v := a) rfl, if_pos ((necWindow_leadMark a).mpr ha),
    checkPulse_of_getElem? (v := b) rfl, if_neg (mt (necWindow_leadGap b).mp hb)]
  rfl

/-- R180: the third check finds no pulse. -/
theorem necHeader_pair (ha : Spec.Within a 6750 11250) (hb : Spec.Within b 3375 5625) :
    necHeader [a, b] = .error (.range 2) := by
  rw [necHeader, checkPulse_of_getElem? (v := a) rfl, if_pos ((necWindow_leadMark a).mpr ha),
    checkPulse_of_getElem? (v := b) rfl, if_pos ((necWindow_leadGap b).mpr hb)]
  rfl

theorem necHeader_of_bitGap (ha : Spec.Within a 6750 11250) (hb : Spec.Within b 3375 5625)
    (hc : ¬ Spec.Within c 422 702) : necHeader (a :: b :: c :: rest) = .error (.timing .necBitGap c) := by
  rw [necHeader_cons, if_pos ((necWindow_leadMark a).mpr ha), if_pos ((necWindow_leadGap b).mpr hb),
    if_neg (mt (necWindow_bitGap c).mp hc)]

end

/-- Settles O28: the header's outcome decides, and after a good header the length does. -/
theorem necDecodeErrorPriority : Obligations.NecDecodeErrorPriority := by
  intro i x s hi
  have failed {e : Err} (he : necHeader x = .error e) : Spec.Answers i s (errResponse e) :=
    answers_necDec_error hi s (necDecode_of_header_error he)
  refine ⟨?_, ?_, ?_, ?_, ?_, ?_, ?_⟩
  · rintro rfl
    exact failed necHeader_nil
  · rintro a rest rfl ha
    exact failed (necHeader_of_leadMark rest ha)
  · rintro a rfl ha
    exact failed (necHeader_singleton ha)
  · rintro a b rest rfl ha hb
    exact failed (necHeader_of_leadGap rest ha hb)
  · rintro a b rfl ha hb
    exact failed (necHeader_pair ha hb)
  · rintro a b c rest rfl ha hb hc
    exact failed (necHeader_of_bitGap rest ha hb hc)
  · rintro a b c rest rfl ha hb hc
    have hheader := necHeader_of_within rest ha hb hc
    refine ⟨fun hlen => answers_necDec_error hi s (necDecode_of_short hheader hlen), fun hlen => ?_⟩
    obtain ⟨p, hp, -⟩ := necDecode_of_header hheader hlen
    have hanswer := answers_of_reads_necDec hi s
    rw [hp] at hanswer
    exact ⟨p, hanswer⟩

/-! ## The outcomes of RC6.DEC -/

/-- R141: the working copy is the stream with at most a sentinel after it. -/
theorem rc6Padded_eq_append (x : List Pulse) : ∃ pad, rc6Padded x = x ++ pad := by
  unfold rc6Padded
  split
  · exact ⟨_, rfl⟩
  · exact ⟨[], (List.append_nil x).symm⟩

theorem rc6Decode_nil : rc6Decode [] = .error (.range 0) := rfl

theorem rc6Header_of_leadMark {a : Pulse} (rest : List Pulse) (ha : ¬ Spec.Within a 2442 2886) :
    rc6Header (a :: rest) = .error (.timing .rc6LeadMark a) := by
  rw [rc6Header, checkPulse_of_getElem? (v := a) rfl,
    if_neg (mt (inWin_iff a rc6LeadMarkMin rc6LeadMarkMax).mp ha)]
  rfl

theorem rc6Header_of_leadGap {a b : Pulse} (rest : List Pulse) (ha : Spec.Within a 2442 2886)
    (hb : ¬ Spec.Within b 666 1110) : rc6Header (a :: b :: rest) = .error (.timing .rc6LeadGap b) := by
  rw [rc6Header_cons, if_pos ((inWin_iff a rc6LeadMarkMin rc6LeadMarkMax).mpr ha),
    if_neg (mt (inWin_iff b rc6LeadGapMin rc6LeadGapMax).mp hb)]

theorem rc6Decode_of_leadMark {a : Pulse} (rest : List Pulse) (ha : ¬ Spec.Within a 2442 2886) :
    rc6Decode (a :: rest) = .error (.timing .rc6LeadMark a) := by
  obtain ⟨pad, hpad⟩ := rc6Padded_eq_append (a :: rest)
  exact rc6Decode_of_header_error (hpad ▸ rc6Header_of_leadMark (rest ++ pad) ha)

/-- R142: the gap of a stream of one pulse is the sentinel, which is no gap. -/
theorem rc6Decode_singleton {a : Pulse} (ha : Spec.Within a 2442 2886) :
    rc6Decode [a] = .error (.timing .rc6LeadGap 65535#16) :=
  rc6Decode_of_header_error (rc6Header_of_leadGap (b := 65535#16) [] ha (by simp [Spec.Within]))

theorem rc6Decode_of_leadGap {a b : Pulse} (rest : List Pulse) (ha : Spec.Within a 2442 2886)
    (hb : ¬ Spec.Within b 666 1110) : rc6Decode (a :: b :: rest) = .error (.timing .rc6LeadGap b) := by
  obtain ⟨pad, hpad⟩ := rc6Padded_eq_append (a :: b :: rest)
  exact rc6Decode_of_header_error (hpad ▸ rc6Header_of_leadGap (rest ++ pad) ha hb)

/-- R149, R181: after a good leader the decoder succeeds or raises RangeError with the padded length. It needs more than
22 pulses to succeed, since the walk's last position is at least 22, and at most 42 to fail. -/
theorem rc6Decode_of_leader {a b : Pulse} (rest : List Pulse) (ha : Spec.Within a 2442 2886)
    (hb : Spec.Within b 666 1110) :
    let len := (Spec.padded (a :: b :: rest)).length
    (22 < len ∧ ∃ r, rc6Decode (a :: b :: rest) = .ok r) ∨
      (len ≤ 42 ∧ rc6Decode (a :: b :: rest) = .error (.range len)) := by
  intro len
  obtain ⟨pad, hpad⟩ := rc6Padded_eq_append (a :: b :: rest)
  have hP := isWalk_rc6Position (Spec.padded (a :: b :: rest))
  have hlast := hP.bounds le_rfl
  have hdec := rc6Decode_of_isWalk hpad ha hb hP
  split at hdec
  · exact .inl ⟨by omega, _, hdec⟩
  · exact .inr ⟨by omega, hdec⟩

/-- Settles O36: the leader's outcome decides, and after a good leader the bounds on the walk's last position do. -/
theorem rc6DecodeErrorPriority : Obligations.Rc6DecodeErrorPriority := by
  intro i x s hi
  have failed {e : Err} (he : rc6Decode x = .error e) : Spec.Answers i s (errResponse e) :=
    answers_rc6Dec_error hi s he
  refine ⟨?_, ?_, ?_, ?_, ?_⟩
  · rintro rfl
    exact failed rc6Decode_nil
  · rintro a rest rfl ha
    exact failed (rc6Decode_of_leadMark rest ha)
  · rintro a rfl ha
    exact failed (rc6Decode_singleton ha)
  · rintro a b rest rfl ha hb
    exact failed (rc6Decode_of_leadGap rest ha hb)
  · rintro a b rest rfl ha hb
    have hlen := padded_length (a :: b :: rest)
    obtain ⟨hlong, r, hr⟩ | ⟨hshort, he⟩ := rc6Decode_of_leader rest ha hb
    · have hok : ∃ r, Spec.Answers i s (Spec.okResp (.record r)) := ⟨r, (answers_rc6Dec_record_iff hi s r).mpr hr⟩
      exact ⟨by omega, by omega, fun _ _ => .inl hok, fun _ => hok⟩
    · have herr := failed he
      refine ⟨fun h2 => ?_, fun _ _ => herr, fun _ _ => .inr herr, by omega⟩
      rwa [hlen, h2] at herr

/-! ## The requests the host asks for a line -/

/-- An admitted request of an instruction, asked of an idle CORE, gets the instruction's response. -/
theorem ask_encode {p : Params} {i : Instr} (hwf : WellFormed p i = true) :
    ask p (encode i) = some (instrResponse p i) := by
  rw [ask_of_not_oversize (oversize_of_decode (decode_encode i) hwf), requestResponse_encode]

/-- R116: what NEC.DEC HEX decodes a line to. -/
def necDecodeHex (h : List Char) : Except Err NecPayload := txParse h >>= necDecode

/-- R148: what RC6.DEC HEX decodes a line to. -/
def rc6DecodeHex (h : List Char) : Except Err Rc6Record := txParse h >>= rc6Decode

/-- R126: whether NEC.REP HEX takes a line for a repeat code. -/
def necIsRepeatHex (h : List Char) : Bool :=
  match txParse h with
  | .ok x => necIsRepeat x
  | .error _ => false

theorem instrResponse_necDecHex_eq (p : Params) (h : List Char) :
    instrResponse p (.necDecHex h) = responseOf ((necDecodeHex h).map Result.payload) := by
  rw [instrResponse, necDecodeHex]
  cases txParse h <;> rfl

theorem instrResponse_rc6DecHex_eq (p : Params) (h : List Char) :
    instrResponse p (.rc6DecHex h) = responseOf ((rc6DecodeHex h).map Result.record) := by
  rw [instrResponse, rc6DecodeHex]
  cases txParse h <;> rfl

theorem instrResponse_necRepHex_eq (p : Params) (h : List Char) :
    instrResponse p (.necRepHex h) = okResponse (.bit (necIsRepeatHex h)) := rfl

/-! ## The lines each codec claims -/

/-- The first pulse of the stream lies between `lo` and `hi`. -/
def HeadWithin (x : List Pulse) (lo hi : Nat) : Prop := ∃ a rest, x = a :: rest ∧ Spec.Within a lo hi

/-- R187: the windows of the two leading marks are disjoint. -/
theorem HeadWithin.not_rc6 {x : List Pulse} (hnec : HeadWithin x 6750 11250) : ¬ HeadWithin x 2442 2886 := by
  rintro ⟨a, rest, rfl, -, hhigh⟩
  obtain ⟨a', rest', hx, hlow, -⟩ := hnec
  obtain ⟨rfl, -⟩ := List.cons.inj hx
  omega

/-- R187: NEC.DEC claims only streams of 67 pulses or more that begin with the NEC leading mark. -/
theorem necDecode_head {x : List Pulse} {p : NecPayload} (hx : necDecode x = .ok p) :
    HeadWithin x 6750 11250 ∧ 67 ≤ x.length := by
  have hheader : necHeader x = .ok () := by
    cases hh : necHeader x with
    | ok u => rfl
    | error e => cases (necDecode_of_header_error hh).symm.trans hx
  constructor
  · cases x with
    | nil => cases hheader
    | cons a rest =>
      by_contra hhead
      have ha : ¬ Spec.Within a 6750 11250 := fun ha => hhead ⟨a, rest, rfl, ha⟩
      cases (necHeader_of_leadMark rest ha).symm.trans hheader
  · by_contra hlen
    cases (necDecode_of_short hheader (by omega)).symm.trans hx

/-- R187: NEC.REP claims only streams of three pulses that begin with the NEC leading mark. -/
theorem necIsRepeat_head {x : List Pulse} (hx : necIsRepeat x = true) :
    HeadWithin x 6750 11250 ∧ x.length = 3 := by
  obtain ⟨u, v, w, rfl, hu, -⟩ := (necIsRepeat_iff x).mp hx
  exact ⟨⟨u, _, rfl, hu⟩, rfl⟩

/-- R187: RC6.DEC claims only streams that begin with the RC6 leading mark. -/
theorem rc6Decode_head {x : List Pulse} {r : Rc6Record} (hx : rc6Decode x = .ok r) : HeadWithin x 2442 2886 := by
  cases x with
  | nil => cases hx
  | cons a rest =>
    by_contra hhead
    have ha : ¬ Spec.Within a 2442 2886 := fun ha => hhead ⟨a, rest, rfl, ha⟩
    cases (rc6Decode_of_leadMark rest ha).symm.trans hx

/-- The three answers on a line, when at most one is a success. -/
inductive ClaimedAtMostOnce : Except Err NecPayload → Bool → Except Err Rc6Record → Prop where
  | nec (x : NecPayload) (e : Err) : ClaimedAtMostOnce (.ok x) false (.error e)
  | necRepeat (e e' : Err) : ClaimedAtMostOnce (.error e) true (.error e')
  | rc6 (e : Err) (r : Rc6Record) : ClaimedAtMostOnce (.error e) false (.ok r)
  | nothing (e e' : Err) : ClaimedAtMostOnce (.error e) false (.error e')

theorem claimedAtMostOnce_stream (x : List Pulse) :
    ClaimedAtMostOnce (necDecode x) (necIsRepeat x) (rc6Decode x) := by
  cases hn : necDecode x with
  | ok p =>
    obtain ⟨hhead, hlen⟩ := necDecode_head hn
    cases hb : necIsRepeat x with
    | true =>
      obtain ⟨-, hlen'⟩ := necIsRepeat_head hb
      omega
    | false =>
      cases hr : rc6Decode x with
      | ok r => exact absurd (rc6Decode_head hr) hhead.not_rc6
      | error e => exact .nec p e
  | error e =>
    cases hr : rc6Decode x with
    | ok r =>
      cases hb : necIsRepeat x with
      | true => exact absurd (rc6Decode_head hr) (necIsRepeat_head hb).1.not_rc6
      | false => exact .rc6 e r
    | error e' =>
      cases necIsRepeat x with
      | true => exact .necRepeat e e'
      | false => exact .nothing e e'

/-- R187: at most one codec claims a line; a line that does not parse is claimed by none. -/
theorem claimedAtMostOnce (h : List Char) :
    ClaimedAtMostOnce (necDecodeHex h) (necIsRepeatHex h) (rc6DecodeHex h) := by
  rw [necDecodeHex, necIsRepeatHex, rc6DecodeHex]
  cases txParse h with
  | error e => exact .nothing e e
  | ok x => exact claimedAtMostOnce_stream x

/-- Settles O44: in each of the four cases in which a line is claimed at most once, the three results and the dispatch are
known. -/
theorem atMostOneCodecClaimsALine : Obligations.AtMostOneCodecClaimsALine := by
  intro p h hsize
  have hwf : decide (h.length ≤ p.maxHex) = true := decide_eq_true hsize
  have hdec : ask p (encode (.necDecHex h)) = _ := ask_encode hwf
  have hrep : ask p (encode (.necRepHex h)) = _ := ask_encode hwf
  have hrc6 : ask p (encode (.rc6DecHex h)) = _ := ask_encode hwf
  refine ⟨_, _, _, hdec, hrep, hrc6, ?_⟩
  rw [classify, hdec, hrep, hrc6, instrResponse_necDecHex_eq, instrResponse_necRepHex_eq, instrResponse_rc6DecHex_eq]
  have hclaim := claimedAtMostOnce h
  generalize necDecodeHex h = n, necIsRepeatHex h = b, rc6DecodeHex h = r at hclaim
  cases hclaim <;> simp [Except.map]

end Sys2Proof.Machine
end

