-- ==== Sys2Proof/Proofs/ResetAndHazards.lean ====
section
/-! PROOFS. The statements of 70_reset_and_hazards.md: reset (R200, R201), the idle CORE (R200; log 5), and that no request
hangs the CORE (R206). -/

namespace Sys2Proof.Machine

open Sys2Proof

/-! ## No request hangs the CORE -/

/-- The two outcomes of a step: it goes on, or a request in progress is refused for its size (R58). -/
theorem step_next_or_refused (s : State) :
    (∃ t, step s = .next t) ∨
      ∃ r ∈ s.inFlight, oversize s.params r.operand = true ∧ step s = .refused (.oversizeOperand r.operand.tag) := by
  rw [step_eq]
  cases hr : s.inFlight[finishIndex s.turn s.inFlight.length]? with
  | none => exact .inl ⟨s, rfl⟩
  | some r =>
    by_cases hsize : oversize s.params r.operand = true
    · exact .inr ⟨r, List.mem_of_getElem? hr, hsize, if_pos hsize⟩
    · exact .inl ⟨_, if_neg hsize⟩

/-- No request in progress is over its limit, so the step's refusal is ruled out. -/
theorem exists_step_next_of_admitted {s : State} (hs : s.admitted) : ∃ t, step s = .next t := by
  obtain hnext | ⟨r, hr, hsize, -⟩ := step_next_or_refused s
  · exact hnext
  · exact absurd hsize (Bool.eq_false_iff.mp (hs r hr))

/-- A next state keeps the invariant, and the only refusal is a safe one. -/
theorem safeResult_step_of_inv {s : State} (hs : s.Inv) : safeResult (step s) := by
  obtain ⟨t, h⟩ | ⟨r, -, -, h⟩ := step_next_or_refused s
  · rw [h]
    exact stepKeepsResponsesWellFormed s t hs h
  · rw [h]
    trivial

/-- Settles O7: the two outcomes of a step, the admitted case, and the safety of both outcomes. -/
theorem everyAdmittedRequestAnswers : Obligations.EveryAdmittedRequestAnswers :=
  ⟨fun _ => exists_step_next_of_admitted, step_next_or_refused, fun _ => safeResult_step_of_inv⟩

/-! ## Reset while running -/

/-- A request alone gets a response exactly when its size is admitted, and then the response is `requestResponse`. -/
theorem ask_eq_some_iff {p : Params} {r : Request} {x : Response} :
    ask p r = some x ↔ oversize p r.operand = false ∧ requestResponse p r = x := by
  rw [ask_eq]
  cases oversize p r.operand <;> simp

/-- Settles O9: after the reset the reissued request is the only one in progress, and an admitted one since it has a
response alone, so the step delivers that response. -/
theorem resetAbortsAndReissueAnswersAlike : Obligations.ResetAbortsAndReissueAnswersAlike := by
  intro s r x _ hask
  obtain ⟨hsize, rfl⟩ := ask_eq_some_iff.mp hask
  have honly : (s.resetEvent.issue r).inFlight = [r] := rfl
  exact ⟨s.resetEvent_inFlight, s.resetEvent_responses, step_of_inFlight_singleton_admitted honly hsize⟩

/-! ## The state after reset, and the idle CORE -/

/-- Settles O1: the reset state is idle by its own lemmas, and the constants are those of the two tables by evaluation. -/
theorem resetIsIdleWithItsConstants : Obligations.ResetIsIdleWithItsConstants :=
  ⟨State.reset_inFlight, State.reset_responses, rfl, rfl⟩

/-- Settles O6: with no request in progress there is none to answer, whatever the free choice. -/
theorem idleCoreStaysIdle : Obligations.IdleCoreStaysIdle := by
  intro s hidle
  rw [step_eq, hidle, List.getElem?_nil]

end Sys2Proof.Machine
end
